-- ==== Sys2Proof/Word.lean ====
section
/-! DEFINITION. The words, limbs and limb sequences of Crypt-MPA, and the fixed parameters of
`spec/00_scope.md` rule R5. -/

namespace Sys2Proof

/-- The radix of a limb, `10^9` (R5: `RADIX`). -/
abbrev RADIX : Nat := 1000000000

/-- Decimal digits per limb (R5: `LIMB_DIGITS`). -/
abbrev LIMB_DIGITS : Nat := 9

/-- A word of the host port: a control register, a buffer word or a command word (R5: `WORD_BITS`). -/
abbrev Word := BitVec 32

/-- One byte of the register window (R30, R32). -/
abbrev Byte := BitVec 8

/-- One limb: an integer in `[0, RADIX)` (R11; R12 stores it in 30 bits, and the values from
`1000000000` up to `2^30 - 1` never occur). -/
abbrev Limb := Fin 1000000000

/-- A limb sequence, the least significant limb first (R7, R11). -/
abbrev Mag := List Limb

end Sys2Proof
end

