-- ==== Sys2Proof/Syntax.lean ====
section
/-! DEFINITION. The eighteen commands of Crypt-MPA (`spec/30_encoding.md` rule R47), one constructor
for each row of the opcode table, and the pseudo-commands of rule R50. -/

namespace Sys2Proof

/-- The name of a magnitude register, `M0` to `M15` (R14, R45). -/
abbrev RegName := Fin 16

/-- A command. The operands stand in the order of the assembler notation (R49): destinations first,
then sources, then the modulus. -/
inductive Instr where
  /-- R52 -/
  | nop
  /-- R53: `n` buffer words to `rd` -/
  | ld (rd : RegName) (n : BitVec 16)
  /-- R54 -/
  | st (ra : RegName)
  /-- R55 -/
  | mov (rd ra : RegName)
  /-- R56 -/
  | ldi (rd : RegName) (imm : BitVec 16)
  /-- R57 -/
  | add (rd ra rb : RegName)
  /-- R58 -/
  | sub (rd ra rb : RegName)
  /-- R59 -/
  | mul (rd ra rb : RegName)
  /-- R60: left by `k` limbs -/
  | shl (rd ra : RegName) (k : BitVec 16)
  /-- R61: right by `k` limbs -/
  | shr (rd ra : RegName) (k : BitVec 16)
  /-- R62 -/
  | cmp (ra rb : RegName)
  /-- R64: quotient to `rd`, remainder to `rc` -/
  | divrem (rd rc ra rb : RegName)
  /-- R65 -/
  | rem (rd ra rb : RegName)
  /-- R68: `rc` is the modulus -/
  | canon (rd ra rc : RegName)
  /-- R69: `rc` is the modulus -/
  | addmod (rd ra rb rc : RegName)
  /-- R70: `rc` is the modulus -/
  | submod (rd ra rb rc : RegName)
  /-- R71: `rc` is the modulus -/
  | mulmod (rd ra rb rc : RegName)
  /-- R73: `ra` is the base, `rb` the exponent, `rc` the modulus -/
  | powmod (rd ra rb rc : RegName)
  deriving DecidableEq, Repr

/-- The pseudo-commands (R50). -/
inductive Pseudo where
  | clr (rd : RegName)
  | one (rd : RegName)
  | shla (rd : RegName) (k : BitVec 16)
  | shra (rd : RegName) (k : BitVec 16)
  | rema (rd rb : RegName)
  | sqrmod (rd ra rc : RegName)
  deriving DecidableEq, Repr

end Sys2Proof
end

