-- ==== Sys2Proof/WellFormed.lean ====
section
/-! DEFINITION. Which terms of `Instr` are commands: every field already has its width in its type, so
the one check left is `DIVREM`'s `rd != rc` (`spec/30_encoding.md` rules R47, R48 case 3). -/

namespace Sys2Proof

/-- A command the encoding has a legal word for (R47, R48). -/
def Instr.wellFormed : Instr → Bool
  | .divrem rd rc _ _ => rd != rc
  | .nop | .ld _ _ | .st _ | .mov _ _ | .ldi _ _ | .add _ _ _ | .sub _ _ _ | .mul _ _ _
  | .shl _ _ _ | .shr _ _ _ | .cmp _ _ | .rem _ _ _ | .canon _ _ _ | .addmod _ _ _ _
  | .submod _ _ _ _ | .mulmod _ _ _ _ | .powmod _ _ _ _ => true

end Sys2Proof
end

