-- ==== Sys2Proof/Decode.lean ====
section
/-! DEFINITION. From a command word to a command and back (`spec/30_encoding.md` rules R42 to R50).
`decode` is total: a word that is no command is rejected by name. -/

namespace Sys2Proof

/-- Why a word is no command: the three cases of R48. -/
inductive DecodeError where
  /-- R48 case 1: `w[31:24]` is none of the eighteen opcodes -/
  | unknownOpcode (op : Nat)
  /-- R48 case 2: a must-be-zero field of a listed opcode is not 0 -/
  | mustBeZero (op : Nat)
  /-- R48 case 3: `DIVREM` with `rd = rc` -/
  | sameDestination (r : RegName)
  deriving DecidableEq, Repr

/-- `w[hi:lo]` (R6). -/
def bits (w : Word) (hi lo : Nat) : Nat := (w.extractLsb' lo (hi + 1 - lo)).toNat

/-- The 4-bit register field of `w` whose least significant bit is bit `lo` (R45). -/
def regField (w : Word) (lo : Nat) : RegName := Fin.ofNat 16 (bits w (lo + 3) lo)

/-- `rd = w[23:20]` (R43, R44). -/
def rdField (w : Word) : RegName := regField w 20
/-- `ra = w[19:16]` (R43, R44). -/
def raField (w : Word) : RegName := regField w 16
/-- `rb = w[15:12]` (R43). -/
def rbField (w : Word) : RegName := regField w 12
/-- `rc = w[11:8]` (R43). -/
def rcField (w : Word) : RegName := regField w 8
/-- `imm16 = w[15:0]` (R44, R46). -/
def immField (w : Word) : BitVec 16 := w.extractLsb' 0 16

/-- `i` if the must-be-zero fields together read 0; otherwise R48 case 2. -/
def ifZero (w : Word) (mustBeZero : Nat) (i : Instr) : Except DecodeError Instr :=
  if mustBeZero = 0 then .ok i else .error (.mustBeZero (bits w 31 24))

/-- The decoder (R47, R48). The must-be-zero fields of each row are written out: unused register
fields and, in format R, `zero = w[7:0]`. -/
def decode (w : Word) : Except DecodeError Instr :=
  match bits w 31 24 with
  | 0x00 => ifZero w (bits w 23 0) .nop
  | 0x01 => ifZero w (bits w 19 16) (.ld (rdField w) (immField w))
  | 0x02 => ifZero w (bits w 23 20 + bits w 15 0) (.st (raField w))
  | 0x03 => ifZero w (bits w 15 0) (.mov (rdField w) (raField w))
  | 0x04 => ifZero w (bits w 19 16) (.ldi (rdField w) (immField w))
  | 0x10 => ifZero w (bits w 11 0) (.add (rdField w) (raField w) (rbField w))
  | 0x11 => ifZero w (bits w 11 0) (.sub (rdField w) (raField w) (rbField w))
  | 0x12 => ifZero w (bits w 11 0) (.mul (rdField w) (raField w) (rbField w))
  | 0x13 => .ok (.shl (rdField w) (raField w) (immField w))
  | 0x14 => .ok (.shr (rdField w) (raField w) (immField w))
  | 0x15 => ifZero w (bits w 23 20 + bits w 11 0) (.cmp (raField w) (rbField w))
  | 0x18 =>
    if bits w 7 0 = 0 ∧ rdField w = rcField w then .error (.sameDestination (rdField w))
    else ifZero w (bits w 7 0) (.divrem (rdField w) (rcField w) (raField w) (rbField w))
  | 0x19 => ifZero w (bits w 11 0) (.rem (rdField w) (raField w) (rbField w))
  | 0x20 => ifZero w (bits w 15 12 + bits w 7 0) (.canon (rdField w) (raField w) (rcField w))
  | 0x21 => ifZero w (bits w 7 0) (.addmod (rdField w) (raField w) (rbField w) (rcField w))
  | 0x22 => ifZero w (bits w 7 0) (.submod (rdField w) (raField w) (rbField w) (rcField w))
  | 0x23 => ifZero w (bits w 7 0) (.mulmod (rdField w) (raField w) (rbField w) (rcField w))
  | 0x28 => ifZero w (bits w 7 0) (.powmod (rdField w) (raField w) (rbField w) (rcField w))
  | op => .error (.unknownOpcode op)

/-- A word of format R (R43): `op`, `rd`, `ra`, `rb`, `rc`, eight zero bits. -/
def formatR (op : Nat) (rd ra rb rc : RegName) : Word :=
  BitVec.ofNat 32 (op * 2 ^ 24 + rd.val * 2 ^ 20 + ra.val * 2 ^ 16 + rb.val * 2 ^ 12 + rc.val * 2 ^ 8)

/-- A word of format I (R44): `op`, `rd`, `ra`, `imm16`. -/
def formatI (op : Nat) (rd ra : RegName) (imm : BitVec 16) : Word :=
  BitVec.ofNat 32 (op * 2 ^ 24 + rd.val * 2 ^ 20 + ra.val * 2 ^ 16 + imm.toNat)

/-- The opcode of a command, `w[31:24]` of its word (R47). -/
def Instr.opcode : Instr → Nat
  | .nop => 0x00
  | .ld _ _ => 0x01
  | .st _ => 0x02
  | .mov _ _ => 0x03
  | .ldi _ _ => 0x04
  | .add _ _ _ => 0x10
  | .sub _ _ _ => 0x11
  | .mul _ _ _ => 0x12
  | .shl _ _ _ => 0x13
  | .shr _ _ _ => 0x14
  | .cmp _ _ => 0x15
  | .divrem _ _ _ _ => 0x18
  | .rem _ _ _ => 0x19
  | .canon _ _ _ => 0x20
  | .addmod _ _ _ _ => 0x21
  | .submod _ _ _ _ => 0x22
  | .mulmod _ _ _ _ => 0x23
  | .powmod _ _ _ _ => 0x28

/-- The encoder: the word of a command, each unused field 0 (R43, R44, R47). -/
def encode (i : Instr) : Word :=
  match i with
  | .nop => formatR i.opcode 0 0 0 0
  | .ld rd n => formatI i.opcode rd 0 n
  | .st ra => formatR i.opcode 0 ra 0 0
  | .mov rd ra => formatR i.opcode rd ra 0 0
  | .ldi rd imm => formatI i.opcode rd 0 imm
  | .add rd ra rb => formatR i.opcode rd ra rb 0
  | .sub rd ra rb => formatR i.opcode rd ra rb 0
  | .mul rd ra rb => formatR i.opcode rd ra rb 0
  | .shl rd ra k => formatI i.opcode rd ra k
  | .shr rd ra k => formatI i.opcode rd ra k
  | .cmp ra rb => formatR i.opcode 0 ra rb 0
  | .divrem rd rc ra rb => formatR i.opcode rd ra rb rc
  | .rem rd ra rb => formatR i.opcode rd ra rb 0
  | .canon rd ra rc => formatR i.opcode rd ra 0 rc
  | .addmod rd ra rb rc => formatR i.opcode rd ra rb rc
  | .submod rd ra rb rc => formatR i.opcode rd ra rb rc
  | .mulmod rd ra rb rc => formatR i.opcode rd ra rb rc
  | .powmod rd ra rb rc => formatR i.opcode rd ra rb rc

/-- The decoder on a word numbered as the opcode table numbers it; a command is one 32-bit word, so a
bit above the first `nbits` is 0 (R42). -/
def decodeTableWord (nbits w : Nat) : Option Instr :=
  match decode (BitVec.ofNat 32 (w % 2 ^ nbits)) with
  | .ok i => some i
  | .error _ => none

/-- A row of R47's table. -/
structure OpcodeRow where
  mnemonic : String
  pattern : Word
  mask : Word
  deriving DecidableEq, Repr

/-- The columns `match` and `mask` of R47's table. -/
def opcodeTable : List OpcodeRow :=
  [⟨"NOP", 0x00000000, 0xFFFFFFFF⟩, ⟨"LD", 0x01000000, 0xFF0F0000⟩, ⟨"ST", 0x02000000, 0xFFF0FFFF⟩,
   ⟨"MOV", 0x03000000, 0xFF00FFFF⟩, ⟨"LDI", 0x04000000, 0xFF0F0000⟩, ⟨"ADD", 0x10000000, 0xFF000FFF⟩,
   ⟨"SUB", 0x11000000, 0xFF000FFF⟩, ⟨"MUL", 0x12000000, 0xFF000FFF⟩, ⟨"SHL", 0x13000000, 0xFF000000⟩,
   ⟨"SHR", 0x14000000, 0xFF000000⟩, ⟨"CMP", 0x15000000, 0xFFF00FFF⟩,
   ⟨"DIVREM", 0x18000000, 0xFF0000FF⟩, ⟨"REM", 0x19000000, 0xFF000FFF⟩,
   ⟨"CANON", 0x20000000, 0xFF00F0FF⟩, ⟨"ADDMOD", 0x21000000, 0xFF0000FF⟩,
   ⟨"SUBMOD", 0x22000000, 0xFF0000FF⟩, ⟨"MULMOD", 0x23000000, 0xFF0000FF⟩,
   ⟨"POWMOD", 0x28000000, 0xFF0000FF⟩]

/-- The mnemonic of a command (R47). -/
def Instr.mnemonic : Instr → String
  | .nop => "NOP"
  | .ld _ _ => "LD"
  | .st _ => "ST"
  | .mov _ _ => "MOV"
  | .ldi _ _ => "LDI"
  | .add _ _ _ => "ADD"
  | .sub _ _ _ => "SUB"
  | .mul _ _ _ => "MUL"
  | .shl _ _ _ => "SHL"
  | .shr _ _ _ => "SHR"
  | .cmp _ _ => "CMP"
  | .divrem _ _ _ _ => "DIVREM"
  | .rem _ _ _ => "REM"
  | .canon _ _ _ => "CANON"
  | .addmod _ _ _ _ => "ADDMOD"
  | .submod _ _ _ _ => "SUBMOD"
  | .mulmod _ _ _ _ => "MULMOD"
  | .powmod _ _ _ _ => "POWMOD"

/-- An operand as the assembler notation writes it (R49). -/
inductive AsmOperand where
  | reg (r : RegName)
  | imm (v : BitVec 16)
  deriving DecidableEq, Repr

/-- The operands in the order of R47's second column (R49). -/
def Instr.operands : Instr → List AsmOperand
  | .nop => []
  | .ld rd n => [.reg rd, .imm n]
  | .st ra => [.reg ra]
  | .mov rd ra => [.reg rd, .reg ra]
  | .ldi rd imm => [.reg rd, .imm imm]
  | .add rd ra rb | .sub rd ra rb | .mul rd ra rb | .rem rd ra rb => [.reg rd, .reg ra, .reg rb]
  | .shl rd ra k | .shr rd ra k => [.reg rd, .reg ra, .imm k]
  | .cmp ra rb => [.reg ra, .reg rb]
  | .divrem rd rc ra rb => [.reg rd, .reg rc, .reg ra, .reg rb]
  | .canon rd ra rc => [.reg rd, .reg ra, .reg rc]
  | .addmod rd ra rb rc | .submod rd ra rb rc | .mulmod rd ra rb rc | .powmod rd ra rb rc =>
    [.reg rd, .reg ra, .reg rb, .reg rc]

/-- A register `M0` to `M15`, an immediate as a decimal number (R49). -/
def AsmOperand.text : AsmOperand → String
  | .reg r => "M" ++ toString r.val
  | .imm v => toString v.toNat

/-- A command in the assembler notation (R49): mnemonic, then the operands separated by commas. -/
def Instr.text (i : Instr) : String :=
  if i.operands.isEmpty then i.mnemonic
  else i.mnemonic ++ " " ++ ", ".intercalate (i.operands.map AsmOperand.text)

/-- The command each pseudo-command stands for (R50). -/
def Pseudo.expand : Pseudo → Instr
  | .clr rd => .ldi rd 0
  | .one rd => .ldi rd 1
  | .shla rd k => .shl rd rd k
  | .shra rd k => .shr rd rd k
  | .rema rd rb => .rem rd rd rb
  | .sqrmod rd ra rc => .mulmod rd ra ra rc

end Sys2Proof
end

