-- ==== Sys2Proof/Machine/Magnitude.lean ====
section
/-! DEFINITION. Limb sequences as numbers (`spec/00_scope.md` rule R7) and the limb-level algorithms of
the unsigned magnitude engine (`spec/41_magnitude_arithmetic.md`), as the rules' pseudocode has them. -/

namespace Sys2Proof.Mag

/-- The limb `n mod RADIX`. -/
def limbOf (n : Nat) : Limb := ⟨n % RADIX, Nat.mod_lt n (by decide)⟩

/-- `val(L)`, the number a sequence stands for (R7). -/
def val : Mag → Nat
  | [] => 0
  | l :: ls => l.val + RADIX * val ls

/-- `L` without its most significant zero limbs, down to the empty sequence. -/
def dropZeros : Mag → Mag
  | [] => []
  | l :: ls =>
    match dropZeros ls with
    | [] => if l = 0 then [] else [l]
    | k :: ks => l :: k :: ks

/-- `trim(L)`: "trim trailing zero limbs, but never below length 1" (R7, R11). -/
def trim (L : Mag) : Mag :=
  match dropZeros L with
  | [] => [0]
  | k :: ks => k :: ks

/-- Normal form (R11): (a) never empty; (b) no most significant zero limb, but for the one limb 0. -/
abbrev Normal (L : Mag) : Prop := L ≠ [] ∧ (L.length = 1 ∨ L.getLast? ≠ some 0)

/-- The limbs of `n` with no most significant zero, `n < RADIX ^ fuel`. -/
def limbsFuel : Nat → Nat → Mag
  | 0, _ => []
  | fuel + 1, n => if n = 0 then [] else limbOf n :: limbsFuel fuel (n / RADIX)

/-- `limbs(n)`, the normal-form sequence of `n` (R7). -/
def limbs (n : Nat) : Mag := trim (limbsFuel (n.log2 + 1) n)

/-- `nlimbs(n)` (R7). -/
def nlimbs (n : Nat) : Nat := (limbs n).length

/-- The first differing limb of two sequences of one length, most significant first, decides (R17). -/
def cmpLimbs : List Limb → List Limb → Ordering
  | a :: as, b :: bs => if a < b then .lt else if b < a then .gt else cmpLimbs as bs
  | [], [] => .eq
  | [], _ :: _ => .lt
  | _ :: _, [] => .gt

/-- `cmp(A, B)` (R17): by length, then by the first differing limb from the most significant. -/
def cmp (A B : Mag) : Ordering :=
  if A.length < B.length then .lt
  else if B.length < A.length then .gt
  else cmpLimbs A.reverse B.reverse

/-- R57's loop over `n` positions: ripple carry, a limb above a sequence's length read as 0, then the
trailing carry limb. -/
def addLoop : Nat → Mag → Mag → Nat → Mag
  | 0, _, _, carry => if carry = 1 then [1] else []
  | n + 1, A, B, carry =>
    let s := (A.headD 0).val + (B.headD 0).val + carry
    limbOf s :: addLoop n A.tail B.tail (s / RADIX)

/-- The adder (R57). -/
def add (A B : Mag) : Mag := trim (addLoop (max A.length B.length) A B 0)

/-- R58's loop over the positions of `A`, a limb of `B` above its length read as 0. -/
def subLoop : Mag → Mag → Nat → Mag
  | [], _, _ => []
  | a :: as, B, borrow =>
    let b := (B.headD 0).val + borrow
    if a.val < b then limbOf (a.val + RADIX - b) :: subLoop as B.tail 1
    else limbOf (a.val - b) :: subLoop as B.tail 0

/-- The subtracter, for `A >= B` (R58). -/
def sub (A B : Mag) : Mag := trim (subLoop A B 0)

/-- The inner loop of R59 on one limb `a`: `P` is the partial product from position `i` up. The last
carry goes to position `i + len(B)`, "not written in earlier rows". -/
def mulRow (a : Limb) : Mag → Mag → Nat → Mag
  | b :: bs, p :: ps, carry =>
    let cur := p.val + a.val * b.val + carry
    limbOf cur :: mulRow a bs ps (cur / RADIX)
  | [], _ :: ps, carry => limbOf carry :: ps
  | _, [], _ => []

/-- The outer loop of R59: after the row of limb `i`, position `i` is final and the rest goes on. -/
def mulLoop : Mag → Mag → Mag → Mag
  | [], _, P => P
  | a :: as, B, P =>
    match mulRow a B P 0 with
    | [] => []
    | p :: ps => p :: mulLoop as B ps

/-- The schoolbook multiplier (R59). -/
def mul (A B : Mag) : Mag := trim (mulLoop A B (List.replicate (A.length + B.length) 0))

/-- The left limb shifter (R60). -/
def shl (A : Mag) (k : Nat) : Mag := trim (if val A = 0 then [0] else List.replicate k 0 ++ A)

/-- The right limb shifter (R61). -/
def shr (A : Mag) (k : Nat) : Mag := trim (if A.length ≤ k then [0] else A.drop k)

end Sys2Proof.Mag
end

