-- ==== Sys2Proof/Config.lean ====
section
/-! DEFINITION. What an implementation or the platform fixes (`LMAX`, `BASE`) and the values the spec
leaves open (`spec/93_implementation_defined.md` U3, U4, U7, U10). None of the constants has a body: a
statement that rests on them holds whatever they are. -/

namespace Sys2Proof.Config

/-- One less than `LMAX`, so that `1 <= LMAX <= 65535` (R5). -/
opaque lmaxLessOne : Fin 65535

/-- The capacity of the block that is reset: R5's open parameter `LMAX` (assumption 1). -/
def lmax : Nat := lmaxLessOne.val + 1

/-- A quarter of `BASE`, so that `BASE` is a multiple of 4 (R35). -/
opaque baseWord : Nat

/-- The host address of the window's offset 0: R5's open parameter `BASE` (assumption 1). -/
def base : Nat := 4 * baseWord

/-- FREE VALUE (U3, assumption 2): the byte at a window offset of the staging buffer that nothing has
written since the `epoch`-th reset: `bufAtReset epoch offset`. -/
opaque bufAtReset : Nat → Nat → Byte

/-- FREE VALUE (U4, assumption 3): what the `n`-th host read of a buffer word during `BUSY = 1`
returns. -/
opaque busyRead : Nat → Word

end Sys2Proof.Config
end

