-- ==== Sys2Proof/Machine/State.lean ====
section
/-! DEFINITION. The state of the block (`spec/10_state.md` rules R10 to R28), what the outside world
does to it, and the reset state. -/

namespace Sys2Proof.Machine

/-- The causes of a fault, R75's codes 1 to 6. A fault of the block is latched state (R76), so taking
one is a NEXT state and none of these stops the machine. -/
inductive FaultCause where
  | illegalCommand
  | divisionByZero
  | subUnderflow
  | capacityOverflow
  | limbRange
  | lengthRange
  deriving DecidableEq, Repr

/-- Why the machine stops: there is no reason. Every accepted command completes or latches a fault, and
"the block is never stuck" (R85), so this type has no constructor and no step raises one (safe). -/
inductive Fault : Type
  deriving DecidableEq, Repr

/-- What the model gives no meaning to. -/
inductive Refusal where
  /-- raised by `exec` alone, for an instruction without a meaning (none is left); safe -/
  | notModelled (mnemonic : String)
  /-- raised by a host access that is not one 32-bit word: a byte, a half-word, a wider access, a
  burst (R33, U5: "refuse"); safe -/
  | accessWidth (bytes : Nat)
  /-- raised by a host access at an address outside the window (U5: "refuse"); safe -/
  | outsideWindow (addr : Nat)
  /-- raised by a host access at an offset that is not a multiple of 4 (R33, U5: "refuse"); safe -/
  | misaligned (offset : Nat)
  deriving DecidableEq, Repr

/-- One access of the host to the address space the window lies in: `bytes` bytes at `addr` (R8's
`MemRead` and `MemWrite`). The data of a write is one word; another width is refused. -/
inductive HostAccess where
  | read (addr bytes : Nat)
  | write (addr bytes : Nat) (data : Word)
  deriving DecidableEq, Repr

/-- One turn of the schedule: which agent moves next (R9, R37, R86). -/
inductive Event where
  /-- the host performs one access -/
  | access (a : HostAccess)
  /-- the engine completes the command in flight, if there is one (R21) -/
  | engine
  /-- the reset input `rst` (R86) -/
  | rst
  deriving DecidableEq, Repr

/-- The staging buffer as bytes at window offsets, little-endian within a word (R32): offsets strictly
rising. A listed byte has been written since the last reset; an unlisted one is unspecified (U3). -/
abbrev Memory := List Host.Cell

/-- The state of the block. -/
structure State where
  /-- `M0` to `M15` (R11, R14) -/
  regs : Vector Mag 16
  /-- `STATUS.EQ` (R17) -/
  flagEq : Bool
  /-- `STATUS.LT` (R17) -/
  flagLt : Bool
  /-- `STATUS.BUSY` (R21) -/
  busy : Bool
  /-- `STATUS.DONE` (R21) -/
  done : Bool
  /-- `STATUS.FAULT` (R21) -/
  fault : Bool
  /-- `STATUS.REJ` (R21) -/
  rej : Bool
  /-- `FCAUSE[3:0]` (R22) -/
  fcause : BitVec 4
  /-- `FCMD` (R23) -/
  fcmd : Word
  /-- `BUFLEN[15:0]` (R25) -/
  buflen : BitVec 16
  /-- the staging buffer (R26) -/
  mem : Memory
  /-- `CUR`, the command word in flight, meaningful while `busy` (R27) -/
  cur : Word
  /-- the parameter `LMAX` of this block (R5, R19); no step changes it -/
  lmax : Nat
  /-- the parameter `BASE` of this block (R5, R35); no step changes it -/
  base : Nat
  /-- the model's own: how many resets there have been; selects the buffer's unspecified contents (U3) -/
  epoch : Nat
  /-- the model's own: how many free values host reads of a busy buffer have drawn (U4) -/
  draws : Nat
  /-- the model's own: the value the last host read returned -/
  rdata : Word
  /-- the model's own: the turns still to come, the next one first -/
  events : List Event
  deriving DecidableEq, Repr

/-- The state right after reset (R28). `cur`, `rdata` and the model's own counters are DESIGN CHOICES
(assumptions 4 and 5); `lmax` and `base` are whatever the implementation and the platform fix. -/
def State.reset : State where
  regs := Vector.replicate 16 [0]
  flagEq := false
  flagLt := false
  busy := false
  done := false
  fault := false
  rej := false
  fcause := 0
  fcmd := 0
  buflen := 0
  mem := []
  cur := 0
  lmax := Config.lmax
  base := Config.base
  epoch := 0
  draws := 0
  rdata := 0
  events := []

end Sys2Proof.Machine
end

