-- ==== Sys2Proof/Machine/Ops.lean ====
section
/-! DEFINITION. The named operations over registers and the staging buffer, completing a command,
taking a fault and returning from one, and reset. -/

namespace Sys2Proof.Machine

/-! ## The staging buffer, byte by byte -/

/-- The byte listed at `a`, if any. -/
def Memory.lookup (m : Memory) (a : Nat) : Option Byte :=
  match m with
  | [] => none
  | (k, b) :: m => if a = k then some b else Memory.lookup m a

/-- Lists `b` at `a`, in the order of the addresses. -/
def Memory.write (m : Memory) (a : Nat) (b : Byte) : Memory :=
  match m with
  | [] => [(a, b)]
  | (k, c) :: m =>
    if a < k then (a, b) :: (k, c) :: m
    else if a = k then (a, b) :: m
    else (k, c) :: Memory.write m a b

/-- The canonical form: addresses strictly rising. An unlisted byte reads as a free value, so no entry
is known to equal what an unlisted address reads as (assumption 2). -/
def Memory.wf : Memory → Bool
  | [] => true
  | [_] => true
  | (a, _) :: (b, c) :: m => decide (a < b) && Memory.wf ((b, c) :: m)

/-- One byte of the staging buffer, by its window offset: the stored byte, or the unspecified one that
the last reset left (R28, U3). -/
def State.bufByte (s : State) (a : Nat) : Byte :=
  match Memory.lookup s.mem a with
  | some b => b
  | none => Config.bufAtReset s.epoch a

/-- The window offset of `BUF[j]` (R18). -/
def bufOffset (j : Nat) : Nat := 0x100 + 4 * j

/-- The word at a window offset of the buffer: four bytes, little-endian (R32). -/
def State.bufWord (s : State) (off : Nat) : Word :=
  s.bufByte (off + 3) ++ s.bufByte (off + 2) ++ s.bufByte (off + 1) ++ s.bufByte off

/-- Stores a word at a window offset of the buffer (R32). -/
def State.setBufWord (s : State) (off : Nat) (w : Word) : State :=
  let m0 := Memory.write s.mem off (w.extractLsb' 0 8)
  let m1 := Memory.write m0 (off + 1) (w.extractLsb' 8 8)
  let m2 := Memory.write m1 (off + 2) (w.extractLsb' 16 8)
  { s with mem := Memory.write m2 (off + 3) (w.extractLsb' 24 8) }

/-- `BUF[j]` (R26). -/
def State.buf (s : State) (j : Nat) : Word := s.bufWord (bufOffset j)

/-- `BUF[j] <- w` (R26). -/
def State.setBuf (s : State) (j : Nat) (w : Word) : State := s.setBufWord (bufOffset j) w

/-! ## Magnitude registers -/

/-- `M[r]` (R8). -/
def State.reg (s : State) (r : RegName) : Mag := s.regs[r.val]'r.isLt

/-- `val(M[r])`. -/
def State.value (s : State) (r : RegName) : Nat := Mag.val (s.reg r)

/-- `M[r]` holds `L`, without the check of capacity. -/
def State.setReg (s : State) (r : RegName) (L : Mag) : State :=
  { s with regs := s.regs.set r.val L r.isLt }

/-- What a command yields: one fault, or the state with all its writes (R51). -/
abbrev CommandResult := Except FaultCause State

/-- `M[r] <- L` with the check of capacity that every register write carries (R8, R13). -/
def State.writeReg (s : State) (r : RegName) (L : Mag) : CommandResult :=
  if s.lmax < L.length then .error .capacityOverflow else .ok (s.setReg r L)

/-! ## Taking a fault, and going on after one -/

/-- The code of a cause in `FCAUSE[3:0]` (R75). -/
def FaultCause.code : FaultCause → BitVec 4
  | .illegalCommand => 1
  | .divisionByZero => 2
  | .subUnderflow => 3
  | .capacityOverflow => 4
  | .limbRange => 5
  | .lengthRange => 6

/-- Taking a fault (R76). -/
def State.raise (s : State) (f : FaultCause) : State :=
  { s with fault := true, fcause := f.code, fcmd := s.cur, busy := false }

/-- Completion without a fault (R21). -/
def State.finish (s : State) : State := { s with done := true, busy := false }

/-- The engine's completion of a command that yields `out`, from the state `s` it is evaluated on
(R21): all of its writes, or the fault and nothing else. -/
def State.complete (s : State) (out : CommandResult) : State :=
  match out with
  | .ok t => t.finish
  | .error f => s.raise f

/-- A host write of `w` to `CLEAR` (R24); bit 2 is the return from a fault (R79). -/
def State.clear (s : State) (w : Word) : State :=
  { s with
    done := s.done && !w.getLsbD 1
    fault := s.fault && !w.getLsbD 2
    fcause := if w.getLsbD 2 then 0 else s.fcause
    fcmd := if w.getLsbD 2 then 0 else s.fcmd
    rej := s.rej && !w.getLsbD 3 }

/-! ## Reset -/

/-- The reset input (R86): every piece of the block's state as R28 has it, the buffer unspecified anew,
the command in flight abandoned. The parameters stay, and so does what is outside the block. -/
def State.applyReset (s : State) : State :=
  { State.reset with
    lmax := s.lmax
    base := s.base
    epoch := s.epoch + 1
    draws := s.draws
    rdata := s.rdata
    events := s.events }

end Sys2Proof.Machine
end

