-- ==== Sys2Proof/Machine/Flags.lean ====
section
/-! DEFINITION. The two flags (`spec/10_state.md` rule R17) and the status word they are part of
(rule R21). -/

namespace Sys2Proof.Machine

/-- The flags a comparison leaves (R17, R62): both are written, always. -/
def State.setFlags (s : State) (c : Ordering) : State :=
  { s with flagEq := c == .eq, flagLt := c == .lt }

/-- `STATUS` as the host reads it (R21): `BUSY`, `DONE`, `FAULT`, `REJ`, `EQ`, `LT` in bits 0 to 5. -/
def State.statusWord (s : State) : Word :=
  BitVec.ofNat 32
    (s.busy.toNat + 2 * s.done.toNat + 4 * s.fault.toNat + 8 * s.rej.toNat + 16 * s.flagEq.toNat
      + 32 * s.flagLt.toNat)

end Sys2Proof.Machine
end

