-- ==== Sys2Proof/Machine/Operands.lean ====
section
/-! DEFINITION. The operand forms: a register operand is `State.reg` or, as a number, `State.value`
(R45); the immediate (R46); and the words of the staging buffer that `LD` takes and `ST` fills
(`spec/40_data_movement.md` rules R53, R54). -/

namespace Sys2Proof.Machine

/-- The immediate: unsigned, never extended, scaled or shifted (R46). -/
def immValue (imm : BitVec 16) : Nat := imm.toNat

/-- `BUF[0]` to `BUF[n-1]` (R53). -/
def State.bufWords (s : State) (n : Nat) : List Word := (List.range n).map s.buf

/-- A word is a limb if its unsigned value is below `RADIX` (R31, R53). -/
def isLimb (w : Word) : Bool := decide (w.toNat < RADIX)

/-- `zext_32` of a limb (R6, R54). -/
def limbWord (l : Limb) : Word := BitVec.ofNat 32 l.val

/-- `BUF[j], BUF[j+1], ... <-` the limbs (R54). -/
def State.storeLimbs (s : State) (j : Nat) : Mag → State
  | [] => s
  | l :: ls => (s.setBuf j (limbWord l)).storeLimbs (j + 1) ls

end Sys2Proof.Machine
end

