-- ==== Sys2Proof/Machine/Arithmetic.lean ====
section
/-! DEFINITION. `ADD`, `SUB`, `MUL`, `SHL`, `SHR`, `CMP` (`spec/41_magnitude_arithmetic.md`). -/

namespace Sys2Proof.Machine

/-- R57 -/
def execAdd (rd ra rb : RegName) (s : State) : Host.Outcome State Fault Refusal :=
  .next (s.complete (s.writeReg rd (Mag.add (s.reg ra) (s.reg rb))))

/-- R58 -/
def execSub (rd ra rb : RegName) (s : State) : Host.Outcome State Fault Refusal :=
  .next (s.complete
    (if Mag.cmp (s.reg ra) (s.reg rb) = .lt then .error .subUnderflow
     else s.writeReg rd (Mag.sub (s.reg ra) (s.reg rb))))

/-- R59 -/
def execMul (rd ra rb : RegName) (s : State) : Host.Outcome State Fault Refusal :=
  .next (s.complete (s.writeReg rd (Mag.mul (s.reg ra) (s.reg rb))))

/-- R60 -/
def execShl (rd ra : RegName) (k : BitVec 16) (s : State) : Host.Outcome State Fault Refusal :=
  .next (s.complete (s.writeReg rd (Mag.shl (s.reg ra) (immValue k))))

/-- R61 -/
def execShr (rd ra : RegName) (k : BitVec 16) (s : State) : Host.Outcome State Fault Refusal :=
  .next (s.complete (s.writeReg rd (Mag.shr (s.reg ra) (immValue k))))

/-- R62 -/
def execCmp (ra rb : RegName) (s : State) : Host.Outcome State Fault Refusal :=
  .next (s.complete (.ok (s.setFlags (Mag.cmp (s.reg ra) (s.reg rb)))))

end Sys2Proof.Machine
end

