-- ==== Sys2Proof/Machine/Divider.lean ====
section
/-! DEFINITION. The digit-search divider (`spec/42_division.md` rule R64), on numbers as the rule's
pseudocode has it. The probe sequence of the search is not observable (U13). -/

namespace Sys2Proof.Divider

/-- The largest `k` with `b * RADIX^k <= a`, found by going up from `k` ("repeated limb-shifting"). -/
def topShift (a b : Nat) : Nat → Nat → Nat
  | 0, k => k
  | fuel + 1, k => if b * RADIX ^ (k + 1) ≤ a then topShift a b fuel (k + 1) else k

/-- The binary search for the largest `x` in `[lo, hi]` with `bs * x <= r`. (The product is written
`mid * bs`: Lean's kernel unfolds a product along its right factor, and `mid` may be a huge literal.) -/
def digitSearch (bs r : Nat) : Nat → Nat → Nat → Nat
  | 0, lo, _ => lo
  | fuel + 1, lo, hi =>
    if lo < hi then
      let mid := (lo + hi + 1) / 2
      if mid * bs ≤ r then digitSearch bs r fuel mid hi else digitSearch bs r fuel lo (mid - 1)
    else lo

/-- One quotient limb: the largest `x` in `[0, RADIX - 1]` with `bs * x <= r`. Thirty halvings are
enough, since `RADIX < 2^30`. -/
def digit (bs r : Nat) : Nat := digitSearch bs r 30 0 (RADIX - 1)

/-- The digit loop for the shifts `n - 1` down to 0: from what is left of the dividend and the quotient
so far, to the quotient and the remainder. -/
def digitLoop (b : Nat) : Nat → Nat → Nat → Nat × Nat
  | 0, r, q => (q, r)
  | s + 1, r, q =>
    let bs := b * RADIX ^ s
    let x := digit bs r
    digitLoop b s (r - bs * x) (q + x * RADIX ^ s)

/-- `(q, r)` for a divisor `b` that is not 0 (R64); with `a < b` the loop is not entered. -/
def divRem (a b : Nat) : Nat × Nat :=
  if b ≤ a then digitLoop b (topShift a b (a.log2 + 1) 0 + 1) a 0 else (0, a)

end Sys2Proof.Divider
end

