-- ==== Sys2Proof/Machine/Division.lean ====
section
/-! DEFINITION. `DIVREM`, `REM` (`spec/42_division.md`). -/

namespace Sys2Proof.Machine

/-- R64: both destinations are written, or neither. A term with `rd = rc` has no legal word, and is the
illegal command of R48 case 3. -/
def divremResult (rd rc ra rb : RegName) (s : State) : CommandResult :=
  if rd = rc then .error .illegalCommand
  else if s.value rb = 0 then .error .divisionByZero
  else
    let qr := Divider.divRem (s.value ra) (s.value rb)
    match s.writeReg rd (Mag.limbs qr.1) with
    | .error f => .error f
    | .ok t => t.writeReg rc (Mag.limbs qr.2)

/-- R64 -/
def execDivrem (rd rc ra rb : RegName) (s : State) : Host.Outcome State Fault Refusal :=
  .next (s.complete (divremResult rd rc ra rb s))

/-- R65 -/
def execRem (rd ra rb : RegName) (s : State) : Host.Outcome State Fault Refusal :=
  .next (s.complete
    (if s.value rb = 0 then .error .divisionByZero
     else s.writeReg rd (Mag.limbs (Divider.divRem (s.value ra) (s.value rb)).2)))

end Sys2Proof.Machine
end

