-- ==== Sys2Proof/Machine/ModularEngine.lean ====
section
/-! DEFINITION. The modular-multiplication engine and the exponentiation pipeline on numbers
(`spec/43_modular_multiplication.md`, `spec/44_modular_exponentiation.md`). Every intermediate is
working storage and exact (R27). -/

namespace Sys2Proof.Modular

/-- `canon(x, m) = x mod m` (R67). -/
def canon (x m : Nat) : Nat := x % m

/-- R69: canonicalize the operands, add, canonicalize the sum. -/
def addMod (a b m : Nat) : Nat := canon (canon a m + canon b m) m

/-- R70: canonicalize the operands, subtract the smaller from the larger, and take the difference from
`m` where the source's would be negative. -/
def subMod (a b m : Nat) : Nat :=
  let a1 := canon a m
  let b1 := canon b m
  if b1 ≤ a1 then a1 - b1 else m - (b1 - a1)

/-- R71: canonicalize the operands, multiply, canonicalize the product. -/
def mulMod (a b m : Nat) : Nat := canon (canon a m * canon b m) m

/-- R73's loop, on the accumulator, the square and what is left of the exponent. -/
def powLoop (m : Nat) : Nat → Nat → Nat → Nat → Nat
  | 0, acc, _, _ => acc
  | fuel + 1, acc, sq, x =>
    if x = 0 then acc
    else powLoop m fuel (if x % 2 = 1 then canon (acc * sq) m else acc) (canon (sq * sq) m) (x / 2)

/-- R73: binary exponentiation; the loop runs once for each binary digit of `e`. -/
def powMod (a e m : Nat) : Nat := powLoop m (e.log2 + 1) 1 (canon a m) e

end Sys2Proof.Modular
end

