-- ==== Sys2Proof/Machine/ModularArithmetic.lean ====
section
/-! DEFINITION. `CANON`, `ADDMOD`, `SUBMOD`, `MULMOD` (`spec/43_modular_multiplication.md`) and `POWMOD`
(`spec/44_modular_exponentiation.md`). -/

namespace Sys2Proof.Machine

/-- What every modular command shares (R72): the check of the modulus `M[rc]` before anything else, then
the result `v` to `rd`. -/
def State.modResult (s : State) (rd rc : RegName) (v : Nat) : CommandResult :=
  if s.value rc = 0 then .error .divisionByZero else s.writeReg rd (Mag.limbs v)

/-- R68 -/
def execCanon (rd ra rc : RegName) (s : State) : Host.Outcome State Fault Refusal :=
  .next (s.complete (s.modResult rd rc (Modular.canon (s.value ra) (s.value rc))))

/-- R69 -/
def execAddmod (rd ra rb rc : RegName) (s : State) : Host.Outcome State Fault Refusal :=
  .next (s.complete (s.modResult rd rc (Modular.addMod (s.value ra) (s.value rb) (s.value rc))))

/-- R70 -/
def execSubmod (rd ra rb rc : RegName) (s : State) : Host.Outcome State Fault Refusal :=
  .next (s.complete (s.modResult rd rc (Modular.subMod (s.value ra) (s.value rb) (s.value rc))))

/-- R71 -/
def execMulmod (rd ra rb rc : RegName) (s : State) : Host.Outcome State Fault Refusal :=
  .next (s.complete (s.modResult rd rc (Modular.mulMod (s.value ra) (s.value rb) (s.value rc))))

/-- R73 -/
def execPowmod (rd ra rb rc : RegName) (s : State) : Host.Outcome State Fault Refusal :=
  .next (s.complete (s.modResult rd rc (Modular.powMod (s.value ra) (s.value rb) (s.value rc))))

end Sys2Proof.Machine
end

