-- ==== Sys2Proof/Machine/Movement.lean ====
section
/-! DEFINITION. `NOP`, `LD`, `ST`, `MOV`, `LDI` (`spec/40_data_movement.md`). -/

namespace Sys2Proof.Machine

/-- R52 -/
def execNop (s : State) : Host.Outcome State Fault Refusal :=
  .next (s.complete (.ok s))

/-- R53: the length check, then the range check of all `n` words, then the trimmed limbs. -/
def loadResult (rd : RegName) (n : Nat) (s : State) : CommandResult :=
  if s.lmax < n then .error .lengthRange
  else if (s.bufWords n).all isLimb then
    s.writeReg rd (Mag.trim ((s.bufWords n).map fun w => Mag.limbOf w.toNat))
  else .error .limbRange

/-- R53 -/
def execLd (rd : RegName) (n : BitVec 16) (s : State) : Host.Outcome State Fault Refusal :=
  .next (s.complete (loadResult rd (immValue n) s))

/-- R54 -/
def execSt (ra : RegName) (s : State) : Host.Outcome State Fault Refusal :=
  .next (s.complete
    (.ok { s.storeLimbs 0 (s.reg ra) with buflen := BitVec.ofNat 16 (s.reg ra).length }))

/-- R55 -/
def execMov (rd ra : RegName) (s : State) : Host.Outcome State Fault Refusal :=
  .next (s.complete (s.writeReg rd (s.reg ra)))

/-- R56 -/
def execLdi (rd : RegName) (imm : BitVec 16) (s : State) : Host.Outcome State Fault Refusal :=
  .next (s.complete (s.writeReg rd [Mag.limbOf (immValue imm)]))

end Sys2Proof.Machine
end

