-- ==== Sys2Proof/Machine/Dispatch.lean ====
section
/-! DEFINITION. One arm per command: what its completion does (`spec/10_state.md` rule R21). -/

namespace Sys2Proof.Machine

def exec (i : Instr) (s : State) : Host.Outcome State Fault Refusal :=
  match i with
  | .nop => Sys2Proof.Machine.execNop s
  | .ld rd n => Sys2Proof.Machine.execLd rd n s
  | .st ra => Sys2Proof.Machine.execSt ra s
  | .mov rd ra => Sys2Proof.Machine.execMov rd ra s
  | .ldi rd imm => Sys2Proof.Machine.execLdi rd imm s
  | .add rd ra rb => Sys2Proof.Machine.execAdd rd ra rb s
  | .sub rd ra rb => Sys2Proof.Machine.execSub rd ra rb s
  | .mul rd ra rb => Sys2Proof.Machine.execMul rd ra rb s
  | .shl rd ra k => Sys2Proof.Machine.execShl rd ra k s
  | .shr rd ra k => Sys2Proof.Machine.execShr rd ra k s
  | .cmp ra rb => Sys2Proof.Machine.execCmp ra rb s
  | .divrem rd rc ra rb => Sys2Proof.Machine.execDivrem rd rc ra rb s
  | .rem rd ra rb => Sys2Proof.Machine.execRem rd ra rb s
  | .canon rd ra rc => Sys2Proof.Machine.execCanon rd ra rc s
  | .addmod rd ra rb rc => Sys2Proof.Machine.execAddmod rd ra rb rc s
  | .submod rd ra rb rc => Sys2Proof.Machine.execSubmod rd ra rb rc s
  | .mulmod rd ra rb rc => Sys2Proof.Machine.execMulmod rd ra rb rc s
  | .powmod rd ra rb rc => Sys2Proof.Machine.execPowmod rd ra rb rc s

end Sys2Proof.Machine
end

