-- ==== Sys2Proof/Machine/Engine.lean ====
section
/-! DEFINITION. The engine's one step, completion (`spec/10_state.md` rule R21). -/

namespace Sys2Proof.Machine

/-- Completion of the command word in flight: the rule of the command it decodes to, or the fault
`IllegalCommand` (R48, R75). Decoding happens here and not at acceptance (R20). -/
def State.completeCurrent (s : State) : Host.Outcome State Fault Refusal :=
  match decode s.cur with
  | .ok i => exec i s
  | .error _ => .next (s.raise .illegalCommand)

/-- The engine's turn: completion is enabled exactly when `BUSY = 1`; else the block is idle (R21,
R85). -/
def State.engineTurn (s : State) : Host.Outcome State Fault Refusal :=
  if s.busy then s.completeCurrent else .next s

end Sys2Proof.Machine
end

