-- ==== Sys2Proof/Machine/Port.lean ====
section
/-! DEFINITION. The host port: the register window and the host's reads and writes of it
(`spec/10_state.md` rules R18 to R26, `spec/20_memory.md` rules R30 to R37). -/

namespace Sys2Proof.Machine

/-- The size of the window in bytes (R30). -/
def windowBytes : Nat := 0x80000

/-- What stands at an aligned offset of the window (R18). -/
inductive WindowReg where
  | cap
  | cmd
  | status
  | fcause
  | fcmd
  | clear
  | buflen
  /-- reads as 0, ignores writes (R35) -/
  | reserved
  /-- `BUF[j]` -/
  | buf (j : Nat)
  deriving DecidableEq, Repr

/-- The map of the window (R18) for a block of capacity `lmax`. -/
def windowReg (lmax off : Nat) : WindowReg :=
  if off = 0x00 then .cap
  else if off = 0x04 then .cmd
  else if off = 0x08 then .status
  else if off = 0x0C then .fcause
  else if off = 0x10 then .fcmd
  else if off = 0x14 then .clear
  else if off = 0x18 then .buflen
  else if 0x100 ≤ off ∧ off < bufOffset lmax then .buf ((off - 0x100) / 4)
  else .reserved

/-- `CAP` (R19): 8 zero bits, `NREG = 16`, `LMAX`. -/
def State.capWord (s : State) : Word := (0#8 ++ 16#8 ++ BitVec.ofNat 16 s.lmax : BitVec 32)

/-- What a host read of a control register returns (R18 to R25); a write-only register and a reserved
offset read as 0. Buffer words are read by `State.hostRead`. -/
def State.controlWord (s : State) : WindowReg → Word
  | .cap => s.capWord
  | .status => s.statusWord
  | .fcause => s.fcause.setWidth 32
  | .fcmd => s.fcmd
  | .buflen => s.buflen.setWidth 32
  | .cmd | .clear | .reserved | .buf _ => 0

/-- `MemRead(off, 4)`: the value returned goes to `rdata`. A read changes nothing else (R34), but for
the model's own count of free values: during `BUSY = 1` a buffer word reads as one (R26, U4). -/
def State.hostRead (s : State) (off : Nat) : State :=
  match windowReg s.lmax off with
  | .buf j =>
    if s.busy then { s with rdata := Config.busyRead s.draws, draws := s.draws + 1 }
    else { s with rdata := s.buf j }
  | r => { s with rdata := s.controlWord r }

/-- A host write of `w` to `CMD` (R20): accepted, or rejected. -/
def State.writeCmd (s : State) (w : Word) : State :=
  if s.busy = false ∧ s.fault = false then { s with cur := w, busy := true, done := false }
  else { s with rej := true }

/-- A host write of `w` to `BUF[j]` (R26). -/
def State.hostWriteBuf (s : State) (j : Nat) (w : Word) : State :=
  if s.busy then { s with rej := true } else s.setBuf j w

/-- `MemWrite(off, 4, w)`: a write to a read-only register or a reserved offset is ignored (R18, R35). -/
def State.hostWrite (s : State) (off : Nat) (w : Word) : State :=
  match windowReg s.lmax off with
  | .cmd => s.writeCmd w
  | .clear => s.clear w
  | .buf j => s.hostWriteBuf j w
  | .cap | .status | .fcause | .fcmd | .buflen | .reserved => s

/-- The window offset of a host access, if it is one the block gives a meaning to: one aligned 32-bit
word inside the window (R33, U5). -/
def State.offsetOf (s : State) (addr bytes : Nat) : Except Refusal Nat :=
  if bytes ≠ 4 then .error (.accessWidth bytes)
  else if addr < s.base ∨ s.base + windowBytes ≤ addr then .error (.outsideWindow addr)
  else if (addr - s.base) % 4 ≠ 0 then .error (.misaligned (addr - s.base))
  else .ok (addr - s.base)

/-- One access of the host. -/
def State.hostAccess (s : State) (a : HostAccess) : Host.Outcome State Fault Refusal :=
  match a with
  | .read addr bytes =>
    match s.offsetOf addr bytes with
    | .ok off => .next (s.hostRead off)
    | .error r => .refused r
  | .write addr bytes w =>
    match s.offsetOf addr bytes with
    | .ok off => .next (s.hostWrite off w)
    | .error r => .refused r

end Sys2Proof.Machine
end

