-- ==== Sys2Proof/Machine/Step.lean ====
section
/-! DEFINITION. One step of the machine: the agent whose turn it is moves (`spec/00_scope.md` rule R9,
`spec/20_memory.md` rule R37). -/

namespace Sys2Proof.Machine

/-- One turn. The schedule says which agent moves; when it is empty the host does nothing more and a
command in flight completes (R89). -/
def step (s : State) : Host.Outcome State Fault Refusal :=
  match s.events with
  | [] => s.engineTurn
  | .engine :: es => State.engineTurn { s with events := es }
  | .access a :: es => State.hostAccess { s with events := es } a
  | .rst :: es => .next (State.applyReset { s with events := es })

/-- `s` with the command word `w` in flight, as an accepted `CMD` write leaves it (R20), and the next
turn the engine's: the very next step completes it. A command is accepted only while no fault is
latched, so a latched fault is cleared as R79 has it. The bits of `w` above `nbits` are 0 (R42). -/
def State.withFetchWord (s : State) (nbits w : Nat) : State :=
  { s with
    cur := BitVec.ofNat 32 (w % 2 ^ nbits)
    busy := true
    done := false
    fault := false
    fcause := 0
    fcmd := 0
    events := match s.events with
      | [] => []
      | e :: es => .engine :: e :: es }

end Sys2Proof.Machine
end

