-- ==== Sys2Proof/Machine/HostText.lean ====
section
/-! DEFINITION. The host data conventions of `spec/20_memory.md` rule R40: which limbs the host writes to
the buffer for a decimal text, and the text of the limbs it reads there. Duties of host software, not of
the block; no step uses them. -/

namespace Sys2Proof.HostText

/-- The decimal digits of a text, non-digit characters stripped. -/
def digits (text : List Char) : List Nat := (text.filter Char.isDigit).map fun c => c.toNat - 48

/-- The number that digits write, the most significant first. -/
def number (ds : List Nat) : Nat := ds.foldl (fun v d => 10 * v + d) 0

/-- `count` limbs of nine digits each, from digits that stand least significant first. -/
def groupLimbs : Nat → List Nat → Mag
  | 0, _ => []
  | count + 1, ds => Mag.limbOf (number (ds.take LIMB_DIGITS).reverse) :: groupLimbs count (ds.drop LIMB_DIGITS)

/-- The limbs of a text before trimming: `max(1, ceil(n / 9))` of them, grouped from the least
significant end. -/
def textLimbs (text : List Char) : Mag :=
  groupLimbs (max 1 (((digits text).length + 8) / 9)) (digits text).reverse

/-- The character of a digit. -/
def digitChar (d : Nat) : Char := Char.ofNat (48 + d)

/-- The lowest `n` digits of `v`, the most significant first, padded with zeros. -/
def paddedDigits : Nat → Nat → List Nat
  | 0, _ => []
  | n + 1, v => paddedDigits n (v / 10) ++ [v % 10]

/-- A limb without leading zeros, the single digit 0 for zero. -/
def leadingDigits (v : Nat) : List Nat :=
  match (paddedDigits LIMB_DIGITS v).dropWhile (· == 0) with
  | [] => [0]
  | d :: ds => d :: ds

/-- The decimal text of a magnitude: its most significant limb without leading zeros, each lower limb
with exactly nine digits. -/
def limbsText (L : Mag) : List Char :=
  match L.reverse with
  | [] => []
  | l :: ls => (leadingDigits l.val ++ ls.flatMap fun k => paddedDigits LIMB_DIGITS k.val).map digitChar

end Sys2Proof.HostText
end

