-- ==== Sys2Proof/Safety.lean ====
section
/-! DEFINITION. What claims say of states and runs: the invariant of the block, the operands of a
command, and a host that keeps the rule of `spec/70_reset_and_hazards.md` rule R88. -/

namespace Sys2Proof

/-- The magnitude registers a command reads (R47). -/
def Instr.sources : Instr → List RegName
  | .nop | .ld _ _ | .ldi _ _ => []
  | .st ra | .mov _ ra | .shl _ ra _ | .shr _ ra _ => [ra]
  | .add _ ra rb | .sub _ ra rb | .mul _ ra rb | .cmp ra rb | .rem _ ra rb | .divrem _ _ ra rb => [ra, rb]
  | .canon _ ra rc => [ra, rc]
  | .addmod _ ra rb rc | .submod _ ra rb rc | .mulmod _ ra rb rc | .powmod _ ra rb rc => [ra, rb, rc]

/-- The magnitude registers a command writes (R47). -/
def Instr.destinations : Instr → List RegName
  | .nop | .st _ | .cmp _ _ => []
  | .ld rd _ | .mov rd _ | .ldi rd _ | .add rd _ _ | .sub rd _ _ | .mul rd _ _ | .shl rd _ _
  | .shr rd _ _ | .rem rd _ _ | .canon rd _ _ | .addmod rd _ _ _ | .submod rd _ _ _
  | .mulmod rd _ _ _ | .powmod rd _ _ _ => [rd]
  | .divrem rd rc _ _ => [rd, rc]

end Sys2Proof

namespace Sys2Proof.Machine

/-- What holds of the block at every moment (it rules out states no run from reset reaches). -/
structure State.Inv (s : State) : Prop where
  /-- R5 -/
  lmax_pos : 1 ≤ s.lmax
  /-- R5 -/
  lmax_le : s.lmax ≤ 65535
  /-- R35 -/
  base_aligned : s.base % 4 = 0
  /-- R11: invariants (a) and (b) of every register -/
  regs_normal : ∀ r, Mag.Normal (s.reg r)
  /-- R12, R13 -/
  regs_fit : ∀ r, (s.reg r).length ≤ s.lmax
  /-- R17: "both 1 never occurs" -/
  flags_exclusive : ¬(s.flagEq = true ∧ s.flagLt = true)
  /-- R20, R21: a command in flight was accepted with no fault latched, and cleared `DONE` -/
  busy_alone : s.busy = true → s.done = false ∧ s.fault = false
  /-- R76, R78: `DONE` stays 0 under a fault -/
  fault_not_done : s.fault = true → s.done = false
  /-- R22, R24: without a fault, `FCAUSE` and `FCMD` are 0 -/
  no_cause : s.fault = false → s.fcause = 0 ∧ s.fcmd = 0
  /-- R75: a latched fault has one of the codes 1 to 6 -/
  cause_legal : s.fault = true → 1 ≤ s.fcause.toNat ∧ s.fcause.toNat ≤ 6
  /-- R25, R54 -/
  buflen_le : s.buflen.toNat ≤ s.lmax
  /-- the canonical form of the byte list -/
  mem_wf : Memory.wf s.mem = true
  /-- R18: every listed byte lies in the staging buffer -/
  mem_in_buffer : ∀ e ∈ s.mem, 0x100 ≤ e.1 ∧ e.1 < bufOffset s.lmax

/-- The state a command leaves that faults with `code`: the four lines of R76, and nothing else. -/
def State.faulted (s : State) (code : BitVec 4) : State :=
  { s with fault := true, fcause := code, fcmd := s.cur, busy := false }

/-- The state a command leaves that wrote what `s` holds and completed without a fault (R21). -/
def State.completed (s : State) : State := { s with done := true, busy := false }

/-- A host access that keeps R88's rule: while `BUSY = 1` the host reads `STATUS`, `CAP`, `FCAUSE`,
`FCMD` or `BUFLEN`, or writes `CLEAR`, and does nothing else. -/
def State.hostRule (s : State) (a : HostAccess) : Bool :=
  !s.busy ||
    match a with
    | .read addr _ =>
      (windowReg s.lmax (addr - s.base) ∈ [WindowReg.status, .cap, .fcause, .fcmd, .buflen] : Bool)
    | .write addr _ _ => windowReg s.lmax (addr - s.base) == WindowReg.clear

/-- A host access that writes a word to `CMD`. -/
def State.writesCmd (s : State) : HostAccess → Bool
  | .read _ _ => false
  | .write addr _ _ => windowReg s.lmax (addr - s.base) == WindowReg.cmd

/-- A good state at the end of a host program: no fault latched (R85) and no write lost (R80). -/
def State.good (s : State) : Bool := !s.fault && !s.rej

end Sys2Proof.Machine
end

