-- ==== Sys2Proof/Certificates/Slice0/Obligations.lean ====
section
/-! DEFINITION. The statements for the provers. Each docstring names the rule it formalises. A command's
statement gives the WHOLE next state, so it is its result, its completion and its frame at once:
`(s.setReg rd L).completed` differs from `s` in `M[rd]`, `DONE` and `BUSY` alone, and `s.faulted c` in the
four lines of R76 alone. Its first clause is the encoding: the command's one word, must-be-zero fields 0. -/

open Sys2Proof Sys2Proof.Machine

/-! ## Encoding -/

/-- R43, R44, R47: the word the encoder writes for a legal command decodes to that command. -/
def Obligations.DecodeOfEncodeIsTheCommand : Prop :=
  ∀ i : Instr, i.wellFormed = true → decode (encode i) = .ok i

/-- R47, R48: a word that decodes is the encoding of what it decodes to, which is a legal command: no
command has two words. -/
def Obligations.DecodedWordIsItsEncoding : Prop :=
  ∀ (w : Word) (i : Instr), decode w = .ok i → encode i = w ∧ i.wellFormed = true

/-- R47: a word is the command of a row of the table iff `w & mask = match`, and, for `DIVREM`, also
`rd != rc`; every word matches at most one row. -/
def Obligations.TableRowsSelectCommands : Prop :=
  (∀ row ∈ opcodeTable, ∀ w : Word,
    (∃ i, decode w = .ok i ∧ i.mnemonic = row.mnemonic) ↔
      (w &&& row.mask = row.pattern ∧ (row.mnemonic = "DIVREM" → rdField w ≠ rcField w))) ∧
  ∀ row ∈ opcodeTable, ∀ row' ∈ opcodeTable, ∀ w : Word,
    w &&& row.mask = row.pattern → w &&& row'.mask = row'.pattern → row = row'

/-- R48: the completion of a word raises `IllegalCommand` and changes nothing else exactly when the word
is none of the table's commands. -/
def Obligations.IllegalWordsFaultAtCompletion : Prop :=
  ∀ s : State,
    ((∀ row ∈ opcodeTable, ¬(s.cur &&& row.mask = row.pattern ∧
        (row.mnemonic = "DIVREM" → rdField s.cur ≠ rcField s.cur))) →
      s.completeCurrent = .next (s.faulted 1)) ∧
    ((∃ row ∈ opcodeTable, s.cur &&& row.mask = row.pattern ∧
        (row.mnemonic = "DIVREM" → rdField s.cur ≠ rcField s.cur)) →
      ∃ i, decode s.cur = .ok i ∧ s.completeCurrent = exec i s)

/-- Words of the spec's examples decode to the commands written beside them. -/
def Obligations.WordsOfTheSpecDecode : Prop :=
  decode 0x00000000 = .ok .nop ∧ decode 0x01300002 = .ok (.ld 3 2) ∧
  decode 0x02030000 = .ok (.st 3) ∧ decode 0x1310FFFF = .ok (.shl 1 0 65535) ∧
  decode 0x15044000 = .ok (.cmp 4 4) ∧ decode 0x18321400 = .ok (.divrem 3 4 2 1) ∧
  decode 0x20200300 = .ok (.canon 2 0 3) ∧ decode 0x28524300 = .ok (.powmod 5 2 4 3) ∧
  decode 0x18201200 = .error (.sameDestination 2) ∧ decode 0xFF000000 = .error (.unknownOpcode 255) ∧
  decode 0x10201001 = .error (.mustBeZero 16)

/-! ## The step -/

/-- R9, R21, R37, R86: the agent whose turn it is moves; the engine's turn is completion exactly when
`BUSY = 1`, and otherwise the block is idle. The schedule that says whose turn it is, is the model's
(assumption 6), as is that reset is an entry of it (assumption 12). -/
def Obligations.StepFollowsTheSchedule : Prop :=
  ∀ (s : State) (es : List Event),
    (s.busy = true → s.events = [] → step s = s.completeCurrent) ∧
    (s.busy = false → s.events = [] → step s = .next s) ∧
    (s.busy = true → s.events = .engine :: es → step s = State.completeCurrent { s with events := es }) ∧
    (s.busy = false → s.events = .engine :: es → step s = .next { s with events := es }) ∧
    (∀ a, s.events = .access a :: es → step s = State.hostAccess { s with events := es } a) ∧
    (s.events = .rst :: es → step s = .next (State.applyReset { s with events := es }))

/-- A step runs the decoded instruction (R21): when the word in flight decodes to `i` and the turn is the
engine's, the step is `exec i`, after the turn is taken off the schedule (the model's, assumption 6). -/
def Obligations.StepRunsTheDecodedCommand : Prop :=
  ∀ (s : State) (i : Instr), s.busy = true → decode s.cur = .ok i →
    (s.events = [] → step s = exec i s) ∧
    (∀ es, s.events = .engine :: es → step s = exec i { s with events := es })

/-- The state with a word placed for the next step: exactly that word is in flight, and the very next
step runs its command on the registers and the buffer of `s`. How a word is placed is the model's
(assumption 7). -/
def Obligations.FetchWordRunsNext : Prop :=
  ∀ (s : State) (w : Word) (i : Instr), decode w = .ok i →
    step (s.withFetchWord 32 w.toNat) =
      exec i { s with cur := w, busy := true, done := false, fault := false, fcause := 0, fcmd := 0 }

/-! ## Data movement -/

/-- R52: `NOP` is the word `0x00000000` only; it completes and changes nothing. -/
def Obligations.NopCompletes : Prop :=
  (∀ w : Word, decode w = .ok .nop ↔ w = 0x00000000) ∧
  ∀ s : State, exec .nop s = .next s.completed

/-- R53: `LD` takes the first `n` buffer words as limbs, or faults with `LengthRange`, or else with
`LimbRange`. -/
def Obligations.LdLoadsBufferWords : Prop :=
  ∀ (s : State) (rd : RegName) (n : BitVec 16), s.Inv →
    (∀ w, decode w = .ok (.ld rd n) ↔ w = formatI 0x01 rd 0 n) ∧
    (s.lmax < n.toNat → exec (.ld rd n) s = .next (s.faulted 6)) ∧
    (n.toNat ≤ s.lmax → (∃ j, j < n.toNat ∧ RADIX ≤ (s.buf j).toNat) →
      exec (.ld rd n) s = .next (s.faulted 5)) ∧
    (n.toNat ≤ s.lmax → (∀ j, j < n.toNat → (s.buf j).toNat < RADIX) →
      exec (.ld rd n) s = .next
        (s.setReg rd (Mag.limbs (∑ j ∈ Finset.range n.toNat, (s.buf j).toNat * RADIX ^ j))).completed)

/-- R54: `ST` writes the limbs to the buffer from word 0 up and their number to `BUFLEN`; every byte of
the buffer at word `len` and above, and everything else, stays. -/
def Obligations.StWritesLimbs : Prop :=
  ∀ (s : State) (ra : RegName), s.Inv →
    (∀ w, decode w = .ok (.st ra) ↔ w = formatR 0x02 0 ra 0 0) ∧
    ∃ t, exec (.st ra) s = .next t ∧
      (∀ j (h : j < (s.reg ra).length), (t.buf j).toNat = ((s.reg ra)[j]).val) ∧
      (∀ a, a < bufOffset 0 ∨ bufOffset (s.reg ra).length ≤ a → t.bufByte a = s.bufByte a) ∧
      t.buflen.toNat = (s.reg ra).length ∧
      t = State.completed { s with mem := t.mem, buflen := t.buflen }

/-- R54: an `ST` followed by an `LD` of `BUFLEN` words copies the register, for every `rd`, `rd = ra`
included: the whole next state of the `LD`, so no fault and no other register or buffer byte changed. -/
def Obligations.StThenLdCopies : Prop :=
  ∀ (s t : State) (ra rd : RegName), s.Inv → exec (.st ra) s = .next t →
    exec (.ld rd t.buflen) t = .next (t.setReg rd (s.reg ra)).completed ∧
      ∀ q, (t.setReg rd (s.reg ra)).completed.reg q = if q = rd then s.reg ra else s.reg q

/-- R55: `MOV` copies a register. -/
def Obligations.MovCopies : Prop :=
  ∀ (s : State) (rd ra : RegName), s.Inv →
    (∀ w, decode w = .ok (.mov rd ra) ↔ w = formatR 0x03 rd ra 0 0) ∧
    exec (.mov rd ra) s = .next (s.setReg rd (s.reg ra)).completed

/-- R56: `LDI` makes the one limb `imm16`. -/
def Obligations.LdiMakesOneLimb : Prop :=
  ∀ (s : State) (rd : RegName) (imm : BitVec 16), s.Inv →
    (∀ w, decode w = .ok (.ldi rd imm) ↔ w = formatI 0x04 rd 0 imm) ∧
    ∃ l : Limb, l.val = imm.toNat ∧ exec (.ldi rd imm) s = .next (s.setReg rd [l]).completed

/-! ## Magnitude arithmetic -/

/-- R57: `ADD` gives `limbs(a + b)`, of length `n` or `n + 1`, or faults iff it needs more than `LMAX`
limbs, which takes operands of `LMAX` limbs. -/
def Obligations.AddGivesSum : Prop :=
  ∀ (s : State) (rd ra rb : RegName),
    (∀ w, decode w = .ok (.add rd ra rb) ↔ w = formatR 0x10 rd ra rb 0) ∧
    (Mag.nlimbs (s.value ra + s.value rb) ≤ s.lmax →
      exec (.add rd ra rb) s = .next (s.setReg rd (Mag.limbs (s.value ra + s.value rb))).completed) ∧
    (s.lmax < Mag.nlimbs (s.value ra + s.value rb) → exec (.add rd ra rb) s = .next (s.faulted 4)) ∧
    (s.Inv →
      (Mag.nlimbs (s.value ra + s.value rb) = max (s.reg ra).length (s.reg rb).length ∨
        Mag.nlimbs (s.value ra + s.value rb) = max (s.reg ra).length (s.reg rb).length + 1) ∧
      (s.lmax < Mag.nlimbs (s.value ra + s.value rb) →
        max (s.reg ra).length (s.reg rb).length = s.lmax))

/-- R58: `SUB` gives `limbs(a - b)`, or faults iff `a < b`. -/
def Obligations.SubGivesDifference : Prop :=
  ∀ (s : State) (rd ra rb : RegName), s.Inv →
    (∀ w, decode w = .ok (.sub rd ra rb) ↔ w = formatR 0x11 rd ra rb 0) ∧
    (s.value rb ≤ s.value ra →
      exec (.sub rd ra rb) s = .next (s.setReg rd (Mag.limbs (s.value ra - s.value rb))).completed) ∧
    (s.value ra < s.value rb → exec (.sub rd ra rb) s = .next (s.faulted 3))

/-- R59: `MUL` gives `limbs(a * b)`, for non-zero operands of length `la + lb` or `la + lb - 1`, or
faults iff it needs more than `LMAX` limbs. -/
def Obligations.MulGivesProduct : Prop :=
  ∀ (s : State) (rd ra rb : RegName),
    (∀ w, decode w = .ok (.mul rd ra rb) ↔ w = formatR 0x12 rd ra rb 0) ∧
    (Mag.nlimbs (s.value ra * s.value rb) ≤ s.lmax →
      exec (.mul rd ra rb) s = .next (s.setReg rd (Mag.limbs (s.value ra * s.value rb))).completed) ∧
    (s.lmax < Mag.nlimbs (s.value ra * s.value rb) → exec (.mul rd ra rb) s = .next (s.faulted 4)) ∧
    (s.Inv → s.value ra ≠ 0 → s.value rb ≠ 0 →
      Mag.nlimbs (s.value ra * s.value rb) = (s.reg ra).length + (s.reg rb).length ∨
      Mag.nlimbs (s.value ra * s.value rb) = (s.reg ra).length + (s.reg rb).length - 1)

/-- R60: `SHL` gives `limbs(a * RADIX^k)`, or faults iff `a != 0` and `la + k > LMAX`. -/
def Obligations.ShlMultipliesByRadixPower : Prop :=
  ∀ (s : State) (rd ra : RegName) (k : BitVec 16), s.Inv →
    (∀ w, decode w = .ok (.shl rd ra k) ↔ w = formatI 0x13 rd ra k) ∧
    (s.value ra = 0 ∨ (s.reg ra).length + k.toNat ≤ s.lmax →
      exec (.shl rd ra k) s = .next (s.setReg rd (Mag.limbs (s.value ra * RADIX ^ k.toNat))).completed) ∧
    (s.value ra ≠ 0 → s.lmax < (s.reg ra).length + k.toNat →
      exec (.shl rd ra k) s = .next (s.faulted 4))

/-- R61: `SHR` gives `limbs(a div RADIX^k)`. -/
def Obligations.ShrDividesByRadixPower : Prop :=
  ∀ (s : State) (rd ra : RegName) (k : BitVec 16), s.Inv →
    (∀ w, decode w = .ok (.shr rd ra k) ↔ w = formatI 0x14 rd ra k) ∧
    exec (.shr rd ra k) s = .next (s.setReg rd (Mag.limbs (s.value ra / RADIX ^ k.toNat))).completed

/-- R62 (and R17): `CMP` sets `EQ` iff `a = b` and `LT` iff `a < b`, and writes no register. -/
def Obligations.CmpComparesNumbers : Prop :=
  ∀ (s : State) (ra rb : RegName), s.Inv →
    (∀ w, decode w = .ok (.cmp ra rb) ↔ w = formatR 0x15 0 ra rb 0) ∧
    exec (.cmp ra rb) s = .next (State.completed
      { s with
        flagEq := decide (s.value ra = s.value rb)
        flagLt := decide (s.value ra < s.value rb) })

/-- R63 item 6: `ADD` and `MUL` are commutative in their sources. -/
def Obligations.AddAndMulCommute : Prop :=
  ∀ (s : State) (rd ra rb : RegName),
    exec (.add rd ra rb) s = exec (.add rd rb ra) s ∧ exec (.mul rd ra rb) s = exec (.mul rd rb ra) s

/-! ## Division -/

/-- R64: `DIVREM` gives the quotient rounded down and the remainder, both at once, or faults iff
`b = 0`; `rd = rc` is an illegal encoding. -/
def Obligations.DivremGivesQuotientAndRemainder : Prop :=
  ∀ (s : State) (rd rc ra rb : RegName), s.Inv →
    (rd = rc → decode (formatR 0x18 rd ra rb rc) = .error (.sameDestination rd)) ∧
    (rd ≠ rc → ∀ w, decode w = .ok (.divrem rd rc ra rb) ↔ w = formatR 0x18 rd ra rb rc) ∧
    (rd ≠ rc → s.value rb = 0 → exec (.divrem rd rc ra rb) s = .next (s.faulted 2)) ∧
    (rd ≠ rc → s.value rb ≠ 0 →
      exec (.divrem rd rc ra rb) s = .next
        ((s.setReg rd (Mag.limbs (s.value ra / s.value rb))).setReg rc
          (Mag.limbs (s.value ra % s.value rb))).completed)

/-- R65: `REM` gives the remainder, or faults iff `b = 0`. -/
def Obligations.RemGivesRemainder : Prop :=
  ∀ (s : State) (rd ra rb : RegName), s.Inv →
    (∀ w, decode w = .ok (.rem rd ra rb) ↔ w = formatR 0x19 rd ra rb 0) ∧
    (s.value rb = 0 → exec (.rem rd ra rb) s = .next (s.faulted 2)) ∧
    (s.value rb ≠ 0 →
      exec (.rem rd ra rb) s = .next (s.setReg rd (Mag.limbs (s.value ra % s.value rb))).completed)

/-- R66: after a `DIVREM` that does not fault, `a = q*b + r` and `r < b`; both destinations hold normal
forms. -/
def Obligations.DivremReconstructsDividend : Prop :=
  ∀ (s : State) (rd rc ra rb : RegName), s.Inv → rd ≠ rc → s.value rb ≠ 0 →
    ∃ t, exec (.divrem rd rc ra rb) s = .next t ∧ t.done = true ∧
      s.value ra = t.value rd * s.value rb + t.value rc ∧ t.value rc < s.value rb ∧
      Mag.Normal (t.reg rd) ∧ Mag.Normal (t.reg rc)

/-! ## Modular arithmetic -/

/-- R68: `CANON` gives `a mod m`, or faults iff `m = 0`. -/
def Obligations.CanonGivesResidue : Prop :=
  ∀ (s : State) (rd ra rc : RegName), s.Inv →
    (∀ w, decode w = .ok (.canon rd ra rc) ↔ w = formatR 0x20 rd ra 0 rc) ∧
    (s.value rc = 0 → exec (.canon rd ra rc) s = .next (s.faulted 2)) ∧
    (s.value rc ≠ 0 →
      exec (.canon rd ra rc) s = .next (s.setReg rd (Mag.limbs (s.value ra % s.value rc))).completed)

/-- R68: the result of `CANON rd, ra, rc` is that of `REM rd, ra, rc` for every input. -/
def Obligations.CanonEqualsRem : Prop :=
  ∀ (s : State) (rd ra rc : RegName), exec (.canon rd ra rc) s = exec (.rem rd ra rc) s

/-- R69: `ADDMOD` gives `(a + b) mod m`, or faults iff `m = 0`. -/
def Obligations.AddmodGivesResidueOfSum : Prop :=
  ∀ (s : State) (rd ra rb rc : RegName), s.Inv →
    (∀ w, decode w = .ok (.addmod rd ra rb rc) ↔ w = formatR 0x21 rd ra rb rc) ∧
    (s.value rc = 0 → exec (.addmod rd ra rb rc) s = .next (s.faulted 2)) ∧
    (s.value rc ≠ 0 →
      exec (.addmod rd ra rb rc) s = .next
        (s.setReg rd (Mag.limbs ((s.value ra + s.value rb) % s.value rc))).completed)

/-- R70: `SUBMOD` gives the unique `d` in `[0, m)` with `d + b = a (mod m)`, or faults iff `m = 0`. -/
def Obligations.SubmodGivesResidueOfDifference : Prop :=
  ∀ (s : State) (rd ra rb rc : RegName), s.Inv →
    (∀ w, decode w = .ok (.submod rd ra rb rc) ↔ w = formatR 0x22 rd ra rb rc) ∧
    (s.value rc = 0 → exec (.submod rd ra rb rc) s = .next (s.faulted 2)) ∧
    (∀ d, d < s.value rc → (d + s.value rb) % s.value rc = s.value ra % s.value rc →
      exec (.submod rd ra rb rc) s = .next (s.setReg rd (Mag.limbs d)).completed) ∧
    (s.value rc ≠ 0 →
      ∃ d, d < s.value rc ∧ (d + s.value rb) % s.value rc = s.value ra % s.value rc)

/-- R71: `MULMOD` gives `(a * b) mod m`, or faults iff `m = 0`. -/
def Obligations.MulmodGivesResidueOfProduct : Prop :=
  ∀ (s : State) (rd ra rb rc : RegName), s.Inv →
    (∀ w, decode w = .ok (.mulmod rd ra rb rc) ↔ w = formatR 0x23 rd ra rb rc) ∧
    (s.value rc = 0 → exec (.mulmod rd ra rb rc) s = .next (s.faulted 2)) ∧
    (s.value rc ≠ 0 →
      exec (.mulmod rd ra rb rc) s = .next
        (s.setReg rd (Mag.limbs (s.value ra * s.value rb % s.value rc))).completed)

/-- R73: `POWMOD` gives 1 for exponent 0, whatever the base and the modulus `m >= 1`, and
`(a^e) mod m` for `e >= 1`; it faults iff `m = 0`. -/
def Obligations.PowmodGivesResidueOfPower : Prop :=
  ∀ (s : State) (rd ra rb rc : RegName), s.Inv →
    (∀ w, decode w = .ok (.powmod rd ra rb rc) ↔ w = formatR 0x28 rd ra rb rc) ∧
    (s.value rc = 0 → exec (.powmod rd ra rb rc) s = .next (s.faulted 2)) ∧
    (s.value rc ≠ 0 → s.value rb = 0 →
      exec (.powmod rd ra rb rc) s = .next (s.setReg rd [1]).completed) ∧
    (s.value rc ≠ 0 → s.value rb ≠ 0 →
      exec (.powmod rd ra rb rc) s = .next
        (s.setReg rd (Mag.limbs (s.value ra ^ s.value rb % s.value rc))).completed)

/-- R72: modulus 0 faults with `DivisionByZero` before anything else, whatever the operands; for `m >= 1`
the four modular results are below the modulus, are 0 for `m = 1`, and never overflow. -/
def Obligations.ModulusRange : Prop :=
  ∀ (s : State) (rd ra rb rc : RegName), s.Inv →
    (s.value rc = 0 →
      ∀ i ∈ [Instr.canon rd ra rc, .addmod rd ra rb rc, .submod rd ra rb rc, .mulmod rd ra rb rc,
        .powmod rd ra rb rc], exec i s = .next (s.faulted 2)) ∧
    (1 ≤ s.value rc →
      ∀ i ∈ [Instr.canon rd ra rc, .addmod rd ra rb rc, .submod rd ra rb rc, .mulmod rd ra rb rc],
        ∃ t, exec i s = .next t ∧ t.done = true ∧ t.fault = s.fault ∧ t.value rd < s.value rc ∧
          (s.value rc = 1 → t.reg rd = [0]))

/-- R50: each pseudo-command has the effect its row names. -/
def Obligations.PseudoCommandEffects : Prop :=
  ∀ (s : State) (rd ra rb rc : RegName) (k : BitVec 16), s.Inv →
    exec (Pseudo.clr rd).expand s = .next (s.setReg rd [0]).completed ∧
    exec (Pseudo.one rd).expand s = .next (s.setReg rd [1]).completed ∧
    ((s.reg rd).length + k.toNat ≤ s.lmax →
      exec (Pseudo.shla rd k).expand s = .next
        (s.setReg rd (Mag.limbs (s.value rd * RADIX ^ k.toNat))).completed) ∧
    exec (Pseudo.shra rd k).expand s = .next
      (s.setReg rd (Mag.limbs (s.value rd / RADIX ^ k.toNat))).completed ∧
    (s.value rb ≠ 0 →
      exec (Pseudo.rema rd rb).expand s = .next
        (s.setReg rd (Mag.limbs (s.value rd % s.value rb))).completed) ∧
    (s.value rc ≠ 0 →
      exec (Pseudo.sqrmod rd ra rc).expand s = .next
        (s.setReg rd (Mag.limbs (s.value ra ^ 2 % s.value rc))).completed)

/-! ## What holds of every command -/

/-- R75 and R77: each cause is latched exactly when its row says, `IllegalCommand` before anything else and
`LengthRange` before `LimbRange`; so only `ADD`, `MUL` and `SHL` can raise `CapacityOverflow` (R13). -/
def Obligations.FaultCausesAreExact : Prop :=
  ∀ s t : State, s.Inv → s.busy = true → s.completeCurrent = .next t →
    (t.fault = false → t.fcause = 0) ∧
    (t.fault = true → t.fcause ∈ [1, 2, 3, 4, 5, 6]) ∧
    (t.fault = true ∧ t.fcause = 1 ↔ ∀ i, decode s.cur ≠ .ok i) ∧
    (t.fault = true ∧ t.fcause = 2 ↔ ∃ i rd ra rb rc, decode s.cur = .ok i ∧
      ((i ∈ [Instr.divrem rd rc ra rb, .rem rd ra rb] ∧ s.value rb = 0) ∨
        (i ∈ [Instr.canon rd ra rc, .addmod rd ra rb rc, .submod rd ra rb rc, .mulmod rd ra rb rc,
          .powmod rd ra rb rc] ∧ s.value rc = 0))) ∧
    (t.fault = true ∧ t.fcause = 3 ↔ ∃ rd ra rb, decode s.cur = .ok (.sub rd ra rb) ∧
      s.value ra < s.value rb) ∧
    (t.fault = true ∧ t.fcause = 4 ↔
      (∃ rd ra rb, decode s.cur = .ok (.add rd ra rb) ∧
        s.lmax < Mag.nlimbs (s.value ra + s.value rb)) ∨
      (∃ rd ra rb, decode s.cur = .ok (.mul rd ra rb) ∧
        s.lmax < Mag.nlimbs (s.value ra * s.value rb)) ∨
      ∃ rd ra k, decode s.cur = .ok (.shl rd ra k) ∧
        s.lmax < Mag.nlimbs (s.value ra * RADIX ^ k.toNat)) ∧
    (t.fault = true ∧ t.fcause = 5 ↔ ∃ rd n, decode s.cur = .ok (.ld rd n) ∧ n.toNat ≤ s.lmax ∧
      ∃ j, j < n.toNat ∧ RADIX ≤ (s.buf j).toNat) ∧
    (t.fault = true ∧ t.fcause = 6 ↔ ∃ rd n, decode s.cur = .ok (.ld rd n) ∧ s.lmax < n.toNat)

/-- R75: `NOP`, `ST`, `MOV`, `LDI`, `SHR` and `CMP` raise no fault of their own. -/
def Obligations.CommandsThatNeverFault : Prop :=
  ∀ (s : State) (rd ra rb : RegName) (k : BitVec 16), s.Inv →
    ∀ i ∈ [Instr.nop, .st ra, .mov rd ra, .ldi rd k, .shr rd ra k, .cmp ra rb],
      ∃ t, exec i s = .next t ∧ t.done = true ∧ t.fault = s.fault ∧ t.fcause = s.fcause ∧ t.fcmd = s.fcmd

/-- R76: a fault writes `FAULT`, `FCAUSE` (one of the codes 1 to 6), `FCMD` and `BUSY`, and the faulting
command has no other effect; a command that does not fault sets `DONE` and leaves the fault registers. -/
def Obligations.FaultsArePrecise : Prop :=
  ∀ (s t : State) (i : Instr), exec i s = .next t → s.fault = false →
    (t.fault = true → ∃ c : BitVec 4, 1 ≤ c.toNat ∧ c.toNat ≤ 6 ∧ t = s.faulted c) ∧
    (t.fault = false → t.done = true ∧ t.fcause = s.fcause ∧ t.fcmd = s.fcmd)

/-- The frame of every command: registers but its destinations, `EQ` and `LT` but for `CMP` (R17),
every byte of the buffer and `BUFLEN` but for `ST` (R25, R26, R54), and everything no command writes. -/
def Obligations.CommandFrame : Prop :=
  ∀ (s t : State) (i : Instr), exec i s = .next t →
    (∀ r, r ∉ i.destinations → t.reg r = s.reg r) ∧
    ((∀ ra rb, i ≠ .cmp ra rb) → t.flagEq = s.flagEq ∧ t.flagLt = s.flagLt) ∧
    ((∀ ra, i ≠ .st ra) → (∀ a, t.bufByte a = s.bufByte a) ∧ t.buflen = s.buflen) ∧
    (∀ ra, i = .st ra → ∀ a, a < bufOffset 0 ∨ bufOffset (s.reg ra).length ≤ a →
      t.bufByte a = s.bufByte a) ∧
    t.busy = false ∧ t.rej = s.rej ∧ t.cur = s.cur ∧ t.lmax = s.lmax ∧ t.base = s.base ∧
    t.epoch = s.epoch ∧ t.draws = s.draws ∧ t.rdata = s.rdata ∧ t.events = s.events

/-- R9, R27: a command's outcome depends on its operands alone, and on nothing left from earlier
commands: two states that agree on the source registers and, for `LD`, on the words it takes, give the
same fault or the same results. -/
def Obligations.ResultDependsOnOperandsAlone : Prop :=
  ∀ (s u s' u' : State) (i : Instr), s.lmax = u.lmax → s.fault = false → u.fault = false →
    (∀ r ∈ i.sources, s.reg r = u.reg r) →
    (∀ rd n, i = .ld rd n → ∀ j, j < n.toNat → s.buf j = u.buf j) →
    exec i s = .next s' → exec i u = .next u' →
      s'.fault = u'.fault ∧
      (s'.fault = true → s'.fcause = u'.fcause) ∧
      (s'.fault = false → ∀ r ∈ i.destinations, s'.reg r = u'.reg r) ∧
      (∀ ra rb, i = .cmp ra rb → s'.flagEq = u'.flagEq ∧ s'.flagLt = u'.flagLt) ∧
      (∀ ra, i = .st ra → s'.buflen = u'.buflen ∧ ∀ j, j < (s.reg ra).length → s'.buf j = u'.buf j)

/-! ## The host port -/

/-- R20: a write to `CMD` is accepted iff `BUSY = 0` and `FAULT = 0`, without a check of the word, and
otherwise sets `REJ` and changes nothing else; `CMD` reads as 0. -/
def Obligations.CommandPortWrite : Prop :=
  ∀ (s : State) (w : Word),
    s.hostAccess (.read (s.base + 0x04) 4) = .next { s with rdata := 0 } ∧
    (s.busy = false → s.fault = false →
      s.hostAccess (.write (s.base + 0x04) 4 w) =
        .next { s with cur := w, busy := true, done := false }) ∧
    (s.busy = true ∨ s.fault = true →
      s.hostAccess (.write (s.base + 0x04) 4 w) = .next { s with rej := true })

/-- R21: a read of `STATUS` returns `BUSY`, `DONE`, `FAULT`, `REJ`, `EQ`, `LT` in bits 0 to 5 and zeros
above, and has no side effect. -/
def Obligations.StatusReadShowsBits : Prop :=
  ∀ s : State, ∃ v : Word,
    s.hostAccess (.read (s.base + 0x08) 4) = .next { s with rdata := v } ∧
    v.getLsbD 0 = s.busy ∧ v.getLsbD 1 = s.done ∧ v.getLsbD 2 = s.fault ∧ v.getLsbD 3 = s.rej ∧
    v.getLsbD 4 = s.flagEq ∧ v.getLsbD 5 = s.flagLt ∧ ∀ k, 6 ≤ k → v.getLsbD k = false

/-- R18, R19, R22, R23, R25: what `CAP`, `FCAUSE`, `FCMD` and `BUFLEN` read as. -/
def Obligations.ControlRegisterReads : Prop :=
  ∀ s : State, s.lmax ≤ 65535 →
    (∃ v : Word, s.hostAccess (.read (s.base + 0x00) 4) = .next { s with rdata := v } ∧
      v.toNat = s.lmax + 16 * 2 ^ 16) ∧
    (∃ v : Word, s.hostAccess (.read (s.base + 0x0C) 4) = .next { s with rdata := v } ∧
      v.toNat = s.fcause.toNat) ∧
    s.hostAccess (.read (s.base + 0x10) 4) = .next { s with rdata := s.fcmd } ∧
    ∃ v : Word, s.hostAccess (.read (s.base + 0x18) 4) = .next { s with rdata := v } ∧
      v.toNat = s.buflen.toNat

/-- R34: reads never have side effects: a host read changes nothing of the block, only the value it
returns and, when that value is free (R26, U4), the model's count of free values (assumption 3). -/
def Obligations.HostReadsHaveNoSideEffect : Prop :=
  ∀ (s t : State) (addr bytes : Nat), s.hostAccess (.read addr bytes) = .next t →
    t = { s with rdata := t.rdata, draws := t.draws } ∧ (s.busy = false → t.draws = s.draws)

/-- R24: a write to `CLEAR` clears the named bits at any time and touches nothing else; `CLEAR` reads as
0. -/
def Obligations.ClearPortWrite : Prop :=
  ∀ (s : State) (w : Word),
    s.hostAccess (.read (s.base + 0x14) 4) = .next { s with rdata := 0 } ∧
    s.hostAccess (.write (s.base + 0x14) 4 w) = .next
      { s with
        done := if w.getLsbD 1 = true then false else s.done
        fault := if w.getLsbD 2 = true then false else s.fault
        fcause := if w.getLsbD 2 = true then 0 else s.fcause
        fcmd := if w.getLsbD 2 = true then 0 else s.fcmd
        rej := if w.getLsbD 3 = true then false else s.rej }

/-- R26: a buffer word written while `BUSY = 0` holds the word, whatever its value, and no other byte
changes; a write while `BUSY = 1` is dropped and sets `REJ`; a read returns the stored word while
`BUSY = 0`, and some word while `BUSY = 1`, counted by the model (assumption 3). -/
def Obligations.BufferPortAccess : Prop :=
  ∀ (s : State) (j : Nat) (w : Word), j < s.lmax → s.lmax ≤ 65535 →
    (s.busy = false → ∃ t, s.hostAccess (.write (s.base + (0x100 + 4 * j)) 4 w) = .next t ∧
      t.buf j = w ∧ (∀ a, a < 0x100 + 4 * j ∨ 0x100 + 4 * j + 4 ≤ a → t.bufByte a = s.bufByte a) ∧
      t = { s with mem := t.mem }) ∧
    (s.busy = true →
      s.hostAccess (.write (s.base + (0x100 + 4 * j)) 4 w) = .next { s with rej := true }) ∧
    (s.busy = false →
      s.hostAccess (.read (s.base + (0x100 + 4 * j)) 4) = .next { s with rdata := s.buf j }) ∧
    (s.busy = true → ∃ v, s.hostAccess (.read (s.base + (0x100 + 4 * j)) 4) =
      .next { s with rdata := v, draws := s.draws + 1 })

/-- R32, of the staging buffer: the byte at offset `b` of a buffer word holds its bits `8*b + 7` down to
`8*b`. R32 gives this order where the bus is byte-addressed; that the model keeps the buffer as bytes in it is
the model's reading (DEDUCED, assumption 16). -/
def Obligations.BufferBytesLittleEndian : Prop :=
  ∀ (s : State) (j b : Nat), b < 4 → s.bufByte (0x100 + 4 * j + b) = (s.buf j).extractLsb' (8 * b) 8

/-- R33: the block gives a meaning to a 32-bit access at a multiple of 4 inside the window and to no
other; any other is refused. -/
def Obligations.OnlyAlignedWordsHaveMeaning : Prop :=
  ∀ (s : State) (addr bytes : Nat) (w : Word),
    ((bytes = 4 ∧ s.base ≤ addr ∧ addr < s.base + 0x80000 ∧ (addr - s.base) % 4 = 0) →
      (∃ t, s.hostAccess (.read addr bytes) = .next t) ∧
      ∃ t, s.hostAccess (.write addr bytes w) = .next t) ∧
    (¬(bytes = 4 ∧ s.base ≤ addr ∧ addr < s.base + 0x80000 ∧ (addr - s.base) % 4 = 0) →
      (∃ r, s.hostAccess (.read addr bytes) = .refused r) ∧
      ∃ r, s.hostAccess (.write addr bytes w) = .refused r)

/-- R35 and R18: reserved offsets read as 0 and ignore writes, with no change to `REJ`; a write to a
read-only register is ignored. -/
def Obligations.ReservedAndReadOnlyOffsets : Prop :=
  ∀ (s : State) (off : Nat) (w : Word), off % 4 = 0 → off ≤ 0x7FFFC →
    ((0x1C ≤ off ∧ off ≤ 0xFC) ∨ 0x100 + 4 * s.lmax ≤ off →
      s.hostAccess (.read (s.base + off) 4) = .next { s with rdata := 0 } ∧
      s.hostAccess (.write (s.base + off) 4 w) = .next s) ∧
    (off ∈ [0x00, 0x08, 0x0C, 0x10, 0x18] → s.hostAccess (.write (s.base + off) 4 w) = .next s)

/-- R78, R79: under a latched fault a `CMD` write is dropped; after `CLEAR` bit 2 the fault registers are
0, the magnitude registers and flags are as they were, and the next command is accepted. -/
def Obligations.FaultBlocksCommandsUntilCleared : Prop :=
  ∀ (s : State) (w v : Word), s.fault = true → s.busy = false → w.getLsbD 2 = true →
    s.hostAccess (.write (s.base + 0x04) 4 v) = .next { s with rej := true } ∧
    ∃ t, s.hostAccess (.write (s.base + 0x14) 4 w) = .next t ∧
      t.fault = false ∧ t.fcause = 0 ∧ t.fcmd = 0 ∧ t.regs = s.regs ∧ t.flagEq = s.flagEq ∧
      t.flagLt = s.flagLt ∧
      t.hostAccess (.write (s.base + 0x04) 4 v) = .next { t with cur := v, busy := true, done := false }

/-! ## Reset, and the block as a whole -/

/-- R28: every piece of state after the reset input, from any state, busy or not. The buffer's bytes are
the free values of the new epoch, the model's form of "unspecified" (U3, assumption 2). -/
def Obligations.ResetInputGivesResetValues : Prop :=
  ∀ (s : State) (es : List Event), s.events = .rst :: es →
    ∃ t, step s = .next t ∧ (∀ r, t.reg r = [0]) ∧ t.statusWord = 0x00000000 ∧ t.busy = false ∧
      t.done = false ∧ t.fault = false ∧ t.rej = false ∧ t.flagEq = false ∧ t.flagLt = false ∧
      t.fcause = 0 ∧ t.fcmd = 0 ∧ t.buflen = 0 ∧
      (∀ a, t.bufByte a = Config.bufAtReset (s.epoch + 1) a) ∧ t.capWord = s.capWord ∧
      t.lmax = s.lmax ∧ t.base = s.base ∧ t.events = es

/-- R28: the state right after reset has the values of R28's table; the buffer's bytes are the model's
free values of the first epoch (U3, assumption 2). -/
def Obligations.ResetStateValues : Prop :=
  (∀ r, State.reset.reg r = [0]) ∧ State.reset.statusWord = 0x00000000 ∧ State.reset.fcause = 0 ∧
  State.reset.fcmd = 0 ∧ State.reset.buflen = 0 ∧
  ∀ a, State.reset.bufByte a = Config.bufAtReset 0 a

/-- R86: reset is the only event that can change a magnitude register other than a command's
completion. -/
def Obligations.OnlyCompletionAndResetChangeRegisters : Prop :=
  ∀ s t : State, step s = .next t → t.regs ≠ s.regs →
    (∃ es, s.events = .rst :: es) ∨
    (s.busy = true ∧ t.busy = false ∧ (s.events = [] ∨ ∃ es, s.events = .engine :: es))

/-- R21 (derived there from R20, R26, R27) and R92: no host access disturbs the command in flight: it
completes as it would have completed without the access, but for `REJ`, what the read returned and the
model's count of free values (assumption 3). -/
def Obligations.HostCannotDisturbCommandInFlight : Prop :=
  ∀ (s t u : State) (a : HostAccess), s.Inv → s.busy = true →
    s.hostAccess a = .next t → s.completeCurrent = .next u →
      ∃ v, t.completeCurrent = .next v ∧
        v = { u with rej := v.rej, rdata := v.rdata, draws := v.draws }

/-- R85, R89: a busy engine is never stuck: its turn ends the command, with `DONE` or with a fault. -/
def Obligations.BusyEngineCompletes : Prop :=
  ∀ s : State, s.busy = true → (s.events = [] ∨ ∃ es, s.events = .engine :: es) →
    ∃ t, step s = .next t ∧ t.busy = false ∧ (t.done = true ∨ t.fault = true)

/-- R89: once the schedule's turns are done the engine is idle: with no access the block refuses, as
many steps as the schedule has turns, and one more, end with `BUSY = 0`. That an empty schedule lets the
engine move is the model's form of R89's fairness (assumption 6). -/
def Obligations.ScheduleEndsIdle : Prop :=
  ∀ s : State,
    (∀ addr bytes, .access (.read addr bytes) ∈ s.events → ∃ off, s.offsetOf addr bytes = .ok off) →
    (∀ addr bytes w, .access (.write addr bytes w) ∈ s.events →
      ∃ off, s.offsetOf addr bytes = .ok off) →
    ∃ run : Nat → State, run 0 = s ∧ (∀ k ≤ s.events.length, step (run k) = .next (run (k + 1))) ∧
      (run (s.events.length + 1)).busy = false ∧ (run (s.events.length + 1)).events = []

/-- The invariant holds right after reset. -/
def Obligations.ResetMeetsTheInvariant : Prop := State.reset.Inv

/-- R11, R12, R13, R17, R20 to R25, R76: the invariant of the block is kept by every step: every register
a normal form of at most `LMAX` limbs, never `EQ` and `LT` both, never busy with a fault or `DONE`,
`FCAUSE` and `FCMD` 0 without a fault, the buffer's bytes in canonical form. -/
def Obligations.EveryStepKeepsTheInvariant : Prop :=
  ∀ s t : State, s.Inv → step s = .next t → t.Inv

/-- R11: two registers hold the same number iff they hold the same sequence, and a register's content is
`limbs(n)` for its number. -/
def Obligations.EqualNumbersEqualSequences : Prop :=
  ∀ s : State, s.Inv → ∀ r q : RegName,
    (s.value r = s.value q ↔ s.reg r = s.reg q) ∧ Mag.limbs (s.value r) = s.reg r ∧
      Mag.nlimbs (s.value r) ≤ s.lmax

/-- R88: a host that keeps the rule, and writes no command under a latched fault, loses no write and reads
no free value (assumption 3). -/
def Obligations.HostRuleLosesNoWrite : Prop :=
  ∀ (s t : State) (a : HostAccess), s.hostRule a = true →
    (s.fault = true → s.writesCmd a = false) → s.hostAccess a = .next t →
      (t.rej = true → s.rej = true) ∧ (s.busy = true → t.busy = true ∧ t.cur = s.cur ∧ t.draws = s.draws)

/-! ## Host data conventions -/

/-- R40: limb `i` of a text is `(v div 10^(9*i)) mod 10^9`, and there are `max(1, ceil(n / 9))` limbs
before trimming. -/
def Obligations.TextLimbsOfNumber : Prop :=
  ∀ text : List Char,
    (HostText.textLimbs text).length = max 1 (((HostText.digits text).length + 8) / 9) ∧
    ∀ i, ((HostText.textLimbs text).getD i 0).val =
      HostText.number (HostText.digits text) / 10 ^ (9 * i) % 10 ^ 9

/-- R40: the text of a magnitude writes its number, and the limbs of that text, trimmed, are the
magnitude. -/
def Obligations.TextRoundTrip : Prop :=
  ∀ L : Mag, Mag.Normal L →
    HostText.number (HostText.digits (HostText.limbsText L)) = Mag.val L ∧
    Mag.trim (HostText.textLimbs (HostText.limbsText L)) = L
end

