-- ==== Sys2Proof/Laws/Decode.lean ====
section
/-! SUPPORT. The fields of a command word. -/

namespace Sys2Proof

/-- A field of a word as arithmetic on its number. -/
theorem bits_eq (w : Word) (hi lo : Nat) : bits w hi lo = w.toNat / 2 ^ lo % 2 ^ (hi + 1 - lo) := by
  rw [bits, BitVec.extractLsb'_toNat, Nat.shiftRight_eq_div_pow]

/-- A field that reads `n`, as an equation of bit vectors (for masks: then compare bit by bit). -/
theorem bits_eq_iff (w : Word) (hi lo n : Nat) (hn : n < 2 ^ (hi + 1 - lo)) :
    bits w hi lo = n ↔ w.extractLsb' lo (hi + 1 - lo) = BitVec.ofNat _ n := by
  rw [bits, ← BitVec.toNat_inj, BitVec.toNat_ofNat, Nat.mod_eq_of_lt hn]

theorem regField_val (w : Word) (lo : Nat) : (regField w lo).val = w.toNat / 2 ^ lo % 16 := by
  rw [regField, Fin.val_ofNat, bits_eq, show lo + 3 + 1 - lo = 4 by omega]
  norm_num

theorem immField_toNat (w : Word) : (immField w).toNat = w.toNat % 65536 := by
  rw [immField, BitVec.extractLsb'_toNat]; norm_num

/-- The number of a word of format R (R43). -/
theorem formatR_toNat {op : Nat} (h : op < 256) (rd ra rb rc : RegName) :
    (formatR op rd ra rb rc).toNat
      = op * 2 ^ 24 + rd.val * 2 ^ 20 + ra.val * 2 ^ 16 + rb.val * 2 ^ 12 + rc.val * 2 ^ 8 := by
  rw [formatR, BitVec.toNat_ofNat, Nat.mod_eq_of_lt]; omega

/-- The number of a word of format I (R44). -/
theorem formatI_toNat {op : Nat} (h : op < 256) (rd ra : RegName) (imm : BitVec 16) :
    (formatI op rd ra imm).toNat
      = op * 2 ^ 24 + rd.val * 2 ^ 20 + ra.val * 2 ^ 16 + imm.toNat := by
  have := imm.isLt
  rw [formatI, BitVec.toNat_ofNat, Nat.mod_eq_of_lt]; omega

/-- Every field of a word of format R. -/
theorem fields_formatR {op : Nat} (h : op < 256) (rd ra rb rc : RegName) {w : Word}
    (hw : w = formatR op rd ra rb rc) :
    bits w 31 24 = op ∧ rdField w = rd ∧ raField w = ra ∧ rbField w = rb ∧ rcField w = rc ∧
      bits w 7 0 = 0 ∧ bits w 11 0 = rc.val * 2 ^ 8 ∧ bits w 15 12 = rb.val ∧
      bits w 15 0 = rb.val * 2 ^ 12 + rc.val * 2 ^ 8 ∧ bits w 23 20 = rd.val ∧
      bits w 23 0 = rd.val * 2 ^ 20 + ra.val * 2 ^ 16 + rb.val * 2 ^ 12 + rc.val * 2 ^ 8 := by
  subst hw
  simp only [Fin.ext_iff, rdField, raField, rbField, rcField, regField_val, bits_eq, formatR_toNat h]
  omega

/-- Every field of a word of format I. -/
theorem fields_formatI {op : Nat} (h : op < 256) (rd ra : RegName) (imm : BitVec 16) {w : Word}
    (hw : w = formatI op rd ra imm) :
    bits w 31 24 = op ∧ rdField w = rd ∧ raField w = ra ∧ immField w = imm ∧ bits w 19 16 = ra.val := by
  subst hw
  have := imm.isLt
  simp only [Fin.ext_iff, ← BitVec.toNat_inj, rdField, raField, regField_val, immField_toNat, bits_eq,
    formatI_toNat h]
  omega

/-- The must-be-zero check passes exactly on zero (R48 case 2). -/
theorem ifZero_eq_ok (w : Word) (z : Nat) (i j : Instr) : ifZero w z i = .ok j ↔ z = 0 ∧ i = j := by
  rw [ifZero]; split <;> simp_all

/-- The opcode of every command fits its field (R42). -/
theorem Instr.opcode_lt (i : Instr) : i.opcode < 256 := by
  cases i <;> simp [Instr.opcode]

/-- A word that decodes has the opcode of what it decodes to (R47). -/
theorem decode_ok_opcode {w : Word} {i : Instr} (h : decode w = .ok i) : bits w 31 24 = i.opcode := by
  rw [decode] at h
  split at h
  case h_12 hop =>
    split at h
    · cases h
    · obtain ⟨-, rfl⟩ := (ifZero_eq_ok ..).mp h; exact hop
  case h_19 => cases h
  all_goals next hop =>
    first
      | obtain ⟨-, rfl⟩ := (ifZero_eq_ok ..).mp h; exact hop
      | cases h; exact hop

/-- A word is of format R exactly when its fields say so (R43). -/
theorem eq_formatR {op : Nat} (h : op < 256) {w : Word} {rd ra rb rc : RegName} :
    w = formatR op rd ra rb rc ↔
      bits w 31 24 = op ∧ rdField w = rd ∧ raField w = ra ∧ rbField w = rb ∧ rcField w = rc ∧
        bits w 7 0 = 0 := by
  constructor
  · intro hw
    obtain ⟨h1, h2, h3, h4, h5, h6, -⟩ := fields_formatR h rd ra rb rc hw
    exact ⟨h1, h2, h3, h4, h5, h6⟩
  · rintro ⟨rfl, rfl, rfl, rfl, rfl, h6⟩
    have := w.isLt
    apply BitVec.eq_of_toNat_eq
    rw [formatR_toNat h]
    simp only [rdField, raField, rbField, rcField, regField_val, bits_eq] at *
    omega

/-- A word is of format I exactly when its fields say so (R44). -/
theorem eq_formatI {op : Nat} (h : op < 256) {w : Word} {rd ra : RegName} {imm : BitVec 16} :
    w = formatI op rd ra imm ↔
      bits w 31 24 = op ∧ rdField w = rd ∧ raField w = ra ∧ immField w = imm := by
  constructor
  · intro hw
    obtain ⟨h1, h2, h3, h4, -⟩ := fields_formatI h rd ra imm hw
    exact ⟨h1, h2, h3, h4⟩
  · rintro ⟨rfl, rfl, rfl, rfl⟩
    have := w.isLt
    apply BitVec.eq_of_toNat_eq
    rw [formatI_toNat h]
    simp only [rdField, raField, regField_val, immField_toNat, bits_eq] at *
    omega

end Sys2Proof
end

