-- ==== Sys2Proof/Laws/Divider.lean ====
section
/-! SUPPORT. The digit-search divider gives the quotient and the remainder (R64's "Result"). -/

namespace Sys2Proof.Divider

/-- The search finds the quotient digit `r / bs` when the interval holds it and the fuel is enough. -/
theorem digitSearch_eq (bs r fuel lo hi : Nat) (hbs : 0 < bs) (hlo : bs * lo ≤ r)
    (hhi : r < bs * (hi + 1)) (hf : hi - lo < 2 ^ fuel) : digitSearch bs r fuel lo hi = r / bs := by
  have exact_digit : ∀ {x y : Nat}, bs * x ≤ r → r < bs * (y + 1) → y ≤ x → x = r / bs := by
    intro x y hx hy hyx
    have h1 : x ≤ r / bs := (Nat.le_div_iff_mul_le hbs).mpr (by rwa [Nat.mul_comm])
    have h2 : r / bs < y + 1 := (Nat.div_lt_iff_lt_mul hbs).mpr (by rwa [Nat.mul_comm])
    omega
  induction fuel generalizing lo hi with
  | zero => rw [digitSearch]; exact exact_digit hlo hhi (by simp at hf; omega)
  | succ fuel ih =>
    rw [Nat.pow_succ] at hf
    rw [digitSearch]
    split
    · dsimp only
      split
      · next h => exact ih _ _ (by rwa [Nat.mul_comm]) hhi (by omega)
      · next h =>
        rw [Nat.mul_comm] at h
        refine ih _ _ hlo ?_ (by omega)
        rw [Nat.sub_add_cancel (by omega)]
        omega
    · next h => exact exact_digit hlo hhi (by omega)

theorem digit_eq (bs r : Nat) (hbs : 0 < bs) (hr : r < bs * RADIX) : digit bs r = r / bs :=
  digitSearch_eq bs r 30 0 (RADIX - 1) hbs (by simp) (by simpa using hr) (by decide)

/-- The digit loop below shift `n` divides what is left of the dividend. -/
theorem digitLoop_eq (b n r q : Nat) (hb : 0 < b) (hr : r < b * RADIX ^ n) :
    digitLoop b n r q = (q + r / b, r % b) := by
  induction n generalizing r q with
  | zero =>
    have : r < b := by simpa using hr
    rw [digitLoop, Nat.div_eq_of_lt this, Nat.mod_eq_of_lt this, Nat.add_zero]
  | succ n ih =>
    have hbs : 0 < b * RADIX ^ n := Nat.mul_pos hb (Nat.pow_pos (by decide))
    have hsub : r - b * RADIX ^ n * (r / (b * RADIX ^ n)) = r % (b * RADIX ^ n) := by
      have := Nat.mod_add_div r (b * RADIX ^ n); omega
    rw [digitLoop, digit_eq _ _ hbs (by rw [Nat.mul_assoc, ← Nat.pow_succ]; exact hr), hsub, ih _ _ (Nat.mod_lt _ hbs)]
    have hsplit : r = r % (b * RADIX ^ n) + b * (RADIX ^ n * (r / (b * RADIX ^ n))) := by
      rw [← Nat.mul_assoc]; exact (Nat.mod_add_div _ _).symm
    have hdiv : r / b = r % (b * RADIX ^ n) / b + RADIX ^ n * (r / (b * RADIX ^ n)) := by
      conv_lhs => rw [hsplit]
      exact Nat.add_mul_div_left _ _ hb
    have hmod : r % b = r % (b * RADIX ^ n) % b := by
      conv_lhs => rw [hsplit]
      exact Nat.add_mul_mod_self_left _ _ _
    rw [hdiv, hmod, Nat.mul_comm (r / (b * RADIX ^ n))]
    congr 1
    omega

theorem lt_topShift (a b fuel k : Nat) (h : a < b * RADIX ^ (k + fuel + 1)) :
    a < b * RADIX ^ (topShift a b fuel k + 1) := by
  induction fuel generalizing k with
  | zero => simpa [topShift] using h
  | succ fuel ih =>
    rw [topShift]
    split
    · exact ih (k + 1) (by rwa [show k + 1 + fuel + 1 = k + (fuel + 1) + 1 by omega])
    · next hk => omega

/-- The divider gives `a div b` and `a mod b` (R64). -/
theorem divRem_eq (a b : Nat) (hb : 0 < b) : divRem a b = (a / b, a % b) := by
  rw [divRem]
  split
  · rw [digitLoop_eq _ _ _ _ hb, Nat.zero_add]
    apply lt_topShift
    calc a < 2 ^ (a.log2 + 1) := Nat.lt_log2_self
      _ ≤ RADIX ^ (a.log2 + 1) := Nat.pow_le_pow_left (by decide) _
      _ ≤ RADIX ^ (0 + (a.log2 + 1) + 1) := Nat.pow_le_pow_right (by decide) (by omega)
      _ ≤ b * RADIX ^ (0 + (a.log2 + 1) + 1) := Nat.le_mul_of_pos_left _ hb
  · next h => rw [Nat.div_eq_of_lt (by omega), Nat.mod_eq_of_lt (by omega)]

end Sys2Proof.Divider
end

