-- ==== Sys2Proof/Laws/Magnitude.lean ====
section
/-! SUPPORT. Limb sequences stand for numbers: normal form is unique, and each unit of the magnitude
engine computes the number its rule's "Result" names. -/

namespace Sys2Proof.Mag

@[simp] theorem limbOf_val (n : Nat) : (limbOf n).val = n % RADIX := rfl

theorem limbOf_self (l : Limb) : limbOf l.val = l := by
  ext; simp [limbOf, Nat.mod_eq_of_lt l.isLt]

@[simp] theorem val_nil : val [] = 0 := rfl
@[simp] theorem val_cons (l : Limb) (ls : Mag) : val (l :: ls) = l.val + RADIX * val ls := rfl

theorem val_append (A B : Mag) : val (A ++ B) = val A + RADIX ^ A.length * val B := by
  induction A with
  | nil => simp
  | cons a as ih => simp only [List.cons_append, val_cons, ih, List.length_cons, Nat.pow_succ]; ring

theorem val_zeros (k : Nat) : val (List.replicate k 0) = 0 := by
  induction k with
  | zero => rfl
  | succ k ih => simp [List.replicate_succ, ih]

/-- A sequence of `k` limbs stands for a number below `RADIX ^ k`. -/
theorem val_lt (L : Mag) : val L < RADIX ^ L.length := by
  induction L with
  | nil => simp
  | cons l ls ih =>
    have hl := l.isLt
    simp only [val_cons, List.length_cons, Nat.pow_succ]
    have : RADIX * (val ls + 1) ≤ RADIX * RADIX ^ ls.length := Nat.mul_le_mul_left _ ih
    rw [Nat.mul_comm (RADIX ^ _)]
    simp only [RADIX] at *
    omega

/-! ## Trimming and normal form -/

theorem val_dropZeros (L : Mag) : val (dropZeros L) = val L := by
  induction L with
  | nil => rfl
  | cons l ls ih =>
    rw [dropZeros, val_cons, ← ih]
    cases hd : dropZeros ls with
    | nil => by_cases h : l = 0 <;> simp [h]
    | cons k ks => simp

theorem dropZeros_last (L : Mag) : (dropZeros L).getLast? ≠ some 0 := by
  induction L with
  | nil => simp [dropZeros]
  | cons l ls ih =>
    rw [dropZeros]
    cases hd : dropZeros ls with
    | nil => by_cases h : l = 0 <;> simp [h]
    | cons k ks => rw [hd] at ih; simpa using ih

theorem dropZeros_length_le (L : Mag) : (dropZeros L).length ≤ L.length := by
  induction L with
  | nil => simp [dropZeros]
  | cons l ls ih =>
    rw [dropZeros]
    cases hd : dropZeros ls with
    | nil => by_cases h : l = 0 <;> simp [h]
    | cons k ks => rw [hd] at ih; simpa using ih

/-- Trimming keeps the number. -/
theorem val_trim (L : Mag) : val (trim L) = val L := by
  rw [trim, ← val_dropZeros L]
  cases dropZeros L <;> simp

/-- Trimming restores normal form. -/
theorem trim_normal (L : Mag) : Normal (trim L) := by
  have h := dropZeros_last L
  rw [trim]
  cases hd : dropZeros L with
  | nil => exact ⟨by simp, .inl rfl⟩
  | cons k ks => rw [hd] at h; exact ⟨by simp, .inr h⟩

/-- Trimming never lengthens a sequence that is not empty. -/
theorem trim_length_le (L : Mag) : (trim L).length ≤ max 1 L.length := by
  have h := dropZeros_length_le L
  rw [trim]
  cases hd : dropZeros L with
  | nil => simp
  | cons k ks => rw [hd] at h; simp at h ⊢; omega

/-- A normal sequence of more than one limb stands for a number with that many limbs. -/
theorem le_val_of_normal {L : Mag} (h : Normal L) (hl : 1 < L.length) :
    RADIX ^ (L.length - 1) ≤ val L := by
  obtain ⟨hne, h1 | hlast⟩ := h
  · omega
  · have hsplit := List.dropLast_append_getLast hne
    have hlen : L.dropLast.length = L.length - 1 := List.length_dropLast
    have hx : L.getLast hne ≠ 0 := by
      intro h0; exact hlast (by rw [List.getLast?_eq_some_getLast hne, h0])
    have hpos : 0 < (L.getLast hne).val := Nat.pos_of_ne_zero (fun h0 => hx (Fin.ext h0))
    have := val_append L.dropLast [L.getLast hne]
    rw [hsplit, hlen] at this
    rw [this]
    simp only [val_cons, val_nil, Nat.mul_zero, Nat.add_zero]
    exact le_add_left (Nat.le_mul_of_pos_right _ hpos)

/-- One number, one normal sequence (R7, R11). -/
theorem normal_unique : ∀ {A B : Mag}, Normal A → Normal B → val A = val B → A = B
  | [], _, hA, _, _ => absurd rfl hA.1
  | _, [], _, hB, _ => absurd rfl hB.1
  | a :: as, b :: bs, hA, hB, h => by
    have ha := a.isLt
    have hb := b.isLt
    simp only [val_cons, RADIX] at h
    have hab : a = b := Fin.ext (by omega)
    have hv : val as = val bs := by omega
    subst hab
    have tail_normal : ∀ {c : Limb} {cs : Mag}, Normal (c :: cs) → cs ≠ [] → Normal cs := by
      rintro c cs ⟨-, h⟩ hne
      refine ⟨hne, .inr ?_⟩
      obtain h | h := h
      · exact absurd (List.length_eq_zero_iff.mp (by simpa using h)) hne
      · rwa [List.getLast?_cons_of_ne_nil hne] at h
    have pos : ∀ {c : Limb} {cs : Mag}, Normal (c :: cs) → cs ≠ [] → 0 < val cs := by
      intro c cs hn hne
      have hlen : 1 < (c :: cs).length := by
        have := List.length_pos_iff.mpr hne; simp; omega
      have hle := le_val_of_normal hn hlen
      have hr : RADIX ^ 1 ≤ RADIX ^ ((c :: cs).length - 1) :=
        Nat.pow_le_pow_right (by decide) (by omega)
      have hc := c.isLt
      simp only [val_cons, RADIX] at hle hr ⊢
      omega
    by_cases has : as = []
    · by_cases hbs : bs = []
      · rw [has, hbs]
      · have := pos hB hbs; rw [has] at hv; simp at hv; omega
    · by_cases hbs : bs = []
      · have := pos hA has; rw [hbs] at hv; simp at hv; omega
      · rw [normal_unique (tail_normal hA has) (tail_normal hB hbs) hv]

theorem val_limbsFuel (fuel n : Nat) (h : n < RADIX ^ fuel) : val (limbsFuel fuel n) = n := by
  induction fuel generalizing n with
  | zero => simp at h; simp [limbsFuel, h]
  | succ fuel ih =>
    rw [limbsFuel]
    by_cases h0 : n = 0
    · simp [h0]
    · have : n / RADIX < RADIX ^ fuel :=
        Nat.div_lt_of_lt_mul (by rw [Nat.pow_succ, Nat.mul_comm] at h; exact h)
      rw [if_neg h0, val_cons, ih _ this, limbOf_val]
      exact Nat.mod_add_div n RADIX

theorem lt_radix_pow_log2 (n : Nat) : n < RADIX ^ (n.log2 + 1) :=
  Nat.lt_of_lt_of_le Nat.lt_log2_self (Nat.pow_le_pow_left (by decide) _)

/-- `limbs(n)` stands for `n` (R7). -/
theorem val_limbs (n : Nat) : val (limbs n) = n := by
  rw [limbs, val_trim, val_limbsFuel _ _ (lt_radix_pow_log2 n)]

/-- `limbs(n)` is in normal form (R7). -/
theorem limbs_normal (n : Nat) : Normal (limbs n) := trim_normal _

/-- `limbs(val(L)) = trim(L)` (R7). -/
theorem trim_eq_limbs (L : Mag) : trim L = limbs (val L) :=
  normal_unique (trim_normal L) (limbs_normal _) (by rw [val_trim, val_limbs])

/-- A normal sequence is `limbs` of its number (R11). -/
theorem limbs_val_of_normal {L : Mag} (h : Normal L) : limbs (val L) = L :=
  normal_unique (limbs_normal _) h (val_limbs _)

/-- A number is below `RADIX ^ k` exactly when `k` limbs hold it. -/
theorem nlimbs_le_iff (n k : Nat) (hk : 1 ≤ k) : nlimbs n ≤ k ↔ n < RADIX ^ k := by
  rw [nlimbs]
  constructor
  · intro h
    calc n = val (limbs n) := (val_limbs n).symm
      _ < RADIX ^ (limbs n).length := val_lt _
      _ ≤ RADIX ^ k := Nat.pow_le_pow_right (by decide) h
  · intro h
    by_contra hc
    have hle := le_val_of_normal (limbs_normal n) (by omega)
    rw [val_limbs] at hle
    have := Nat.pow_le_pow_right (n := RADIX) (by decide) (show k ≤ (limbs n).length - 1 by omega)
    omega

theorem one_le_nlimbs (n : Nat) : 1 ≤ nlimbs n :=
  List.length_pos_iff.mpr (limbs_normal n).1

/-- A smaller number needs no more limbs. -/
theorem nlimbs_mono {m n : Nat} (h : m ≤ n) : nlimbs m ≤ nlimbs n :=
  (nlimbs_le_iff m _ (one_le_nlimbs n)).mpr
    (Nat.lt_of_le_of_lt h ((nlimbs_le_iff n _ (one_le_nlimbs n)).mp le_rfl))

theorem nlimbs_val_of_normal {L : Mag} (h : Normal L) : nlimbs (val L) = L.length := by
  rw [nlimbs, limbs_val_of_normal h]

/-! ## The comparator (R17) -/

theorem cmpLimbs_eq_compare : ∀ {A B : List Limb}, A.length = B.length →
    cmpLimbs A B = compare (val A.reverse) (val B.reverse)
  | [], [], _ => by simp [cmpLimbs]
  | [], _ :: _, h => by simp at h
  | _ :: _, [], h => by simp at h
  | a :: as, b :: bs, h => by
    have hlen : as.length = bs.length := by simpa using h
    have ih := cmpLimbs_eq_compare hlen
    have hA := val_lt as.reverse
    have hB := val_lt bs.reverse
    rw [List.length_reverse] at hA hB
    rw [cmpLimbs, List.reverse_cons, List.reverse_cons, val_append, val_append, List.length_reverse,
      List.length_reverse, ← hlen, ih]
    rw [← hlen] at hB
    simp only [val_cons, val_nil, Nat.mul_zero, Nat.add_zero]
    have key : ∀ {x y : Limb} {u v : Nat}, u < RADIX ^ as.length → x < y →
        u + RADIX ^ as.length * x.val < v + RADIX ^ as.length * y.val := by
      intro x y u v hu hxy
      have : RADIX ^ as.length * (x.val + 1) ≤ RADIX ^ as.length * y.val :=
        Nat.mul_le_mul_left _ hxy
      rw [Nat.mul_add, Nat.mul_one] at this
      omega
    by_cases hab : a < b
    · rw [if_pos hab]; exact (compare_lt_iff_lt.mpr (key hA hab)).symm
    · by_cases hba : b < a
      · rw [if_neg hab, if_pos hba]; exact (compare_gt_iff_gt.mpr (key hB hba)).symm
      · have : a = b := le_antisymm (not_lt.mp hba) (not_lt.mp hab)
        subst this
        rw [if_neg hab, if_neg hba]
        rcases Nat.lt_trichotomy (val as.reverse) (val bs.reverse) with h | h | h
        · rw [compare_lt_iff_lt.mpr h, compare_lt_iff_lt.mpr (Nat.add_lt_add_right h _)]
        · rw [h, compare_eq_iff_eq.mpr rfl, compare_eq_iff_eq.mpr rfl]
        · rw [compare_gt_iff_gt.mpr h, compare_gt_iff_gt.mpr (Nat.add_lt_add_right h _)]

/-- On normal sequences, `cmp` compares the numbers (R17). -/
theorem cmp_eq_compare {A B : Mag} (hA : Normal A) (hB : Normal B) :
    cmp A B = compare (val A) (val B) := by
  have shorter : ∀ {C D : Mag}, Normal C → Normal D → C.length < D.length → val C < val D := by
    intro C D hC hD h
    have hpos := List.length_pos_iff.mpr hC.1
    calc val C < RADIX ^ C.length := val_lt C
      _ ≤ RADIX ^ (D.length - 1) := Nat.pow_le_pow_right (by decide) (by omega)
      _ ≤ val D := le_val_of_normal hD (by omega)
  rw [cmp]
  split
  · next h => exact (compare_lt_iff_lt.mpr (shorter hA hB h)).symm
  · split
    · next h => exact (compare_gt_iff_gt.mpr (shorter hB hA h)).symm
    · rw [cmpLimbs_eq_compare (by simp; omega), List.reverse_reverse, List.reverse_reverse]

/-! ## The adder and the subtracter (R57, R58) -/

theorem val_tail (L : Mag) : val L = (L.headD 0).val + RADIX * val L.tail := by
  cases L <;> simp

theorem val_addLoop (n : Nat) (A B : Mag) (c : Nat) (hA : A.length ≤ n) (hB : B.length ≤ n)
    (hc : c ≤ 1) : val (addLoop n A B c) = val A + val B + c := by
  induction n generalizing A B c with
  | zero =>
    have hA0 := List.length_eq_zero_iff.mp (Nat.le_zero.mp hA)
    have hB0 := List.length_eq_zero_iff.mp (Nat.le_zero.mp hB)
    subst hA0; subst hB0
    rw [addLoop]
    interval_cases c <;> simp
  | succ n ih =>
    have ha := (A.headD 0).isLt
    have hb := (B.headD 0).isLt
    rw [addLoop, val_cons, ih _ _ _ (by simp; omega) (by simp; omega) (by simp only [RADIX]; omega),
      val_tail A, val_tail B, limbOf_val]
    simp only [RADIX]
    omega

/-- The adder gives the sum (R57). -/
theorem add_eq_limbs (A B : Mag) : add A B = limbs (val A + val B) := by
  rw [add, trim_eq_limbs, val_addLoop _ _ _ _ (le_max_left ..) (le_max_right ..) (by decide)]
  rfl

theorem val_subLoop (A B : Mag) (w : Nat) (hw : w ≤ 1) (h : val B + w ≤ val A) :
    val (subLoop A B w) = val A - (val B + w) := by
  induction A generalizing B w with
  | nil => simp [subLoop]
  | cons a as ih =>
    have ha := a.isLt
    have hb := (B.headD 0).isLt
    have hB := val_tail B
    rw [val_cons, hB] at h
    rw [val_cons, hB, subLoop]
    simp only [RADIX] at *
    split
    · rw [val_cons, ih _ _ le_rfl (by omega), limbOf_val]; simp only [RADIX]; omega
    · rw [val_cons, ih _ _ (by omega) (by omega), limbOf_val]; simp only [RADIX]; omega

/-- The subtracter gives the difference when it is not negative (R58). -/
theorem sub_eq_limbs {A B : Mag} (h : val B ≤ val A) : sub A B = limbs (val A - val B) := by
  rw [sub, trim_eq_limbs, val_subLoop _ _ _ (by decide) h]
  rfl

/-! ## The multiplier (R59) -/

/-- The multiplier's intermediate fits 60 bits and its carry one limb (R59). -/
theorem mul_cur_le (p a b : Limb) (c : Nat) (hc : c < RADIX) :
    p.val + a.val * b.val + c ≤ RADIX ^ 2 - 1 := by
  have hp := p.isLt
  have hm : a.val * b.val ≤ (RADIX - 1) * (RADIX - 1) :=
    Nat.mul_le_mul (Nat.le_sub_one_of_lt a.isLt) (Nat.le_sub_one_of_lt b.isLt)
  simp only [RADIX] at *
  omega

/-- One row: the positions of `B` and the one above become `Q + a * B + carry`, the rest stays. -/
theorem mulRow_spec (a : Limb) (B Q Z : Mag) (c : Nat) (hQ : Q.length = B.length) (hc : c < RADIX) :
    ∃ R, mulRow a B (Q ++ 0 :: Z) c = R ++ Z ∧ R.length = B.length + 1 ∧
      val R = val Q + a.val * val B + c := by
  induction B generalizing Q c with
  | nil =>
    have := List.length_eq_zero_iff.mp hQ
    subst this
    refine ⟨[limbOf c], by simp [mulRow], rfl, ?_⟩
    simp [Nat.mod_eq_of_lt hc]
  | cons b bs ih =>
    cases Q with
    | nil => simp at hQ
    | cons q qs =>
      have hcur := mul_cur_le q a b c hc
      have hcar : (q.val + a.val * b.val + c) / RADIX < RADIX := by
        rw [Nat.div_lt_iff_lt_mul (by decide)]; simp only [RADIX] at *; omega
      obtain ⟨R, hR, hlen, hval⟩ := ih qs _ (by simpa using hQ) hcar
      refine ⟨limbOf (q.val + a.val * b.val + c) :: R, ?_, by simp [hlen], ?_⟩
      · rw [List.cons_append, mulRow, hR, List.cons_append]
      · have hdm := Nat.mod_add_div (q.val + a.val * b.val + c) RADIX
        rw [val_cons, hval, limbOf_val, val_cons, val_cons]
        linear_combination hdm

theorem val_mulLoop (A B Q : Mag) (hQ : Q.length = B.length) :
    val (mulLoop A B (Q ++ List.replicate A.length 0)) = val Q + val A * val B := by
  induction A generalizing Q with
  | nil => simp [mulLoop]
  | cons a as ih =>
    obtain ⟨R, hR, hlen, hval⟩ :=
      mulRow_spec a B Q (List.replicate as.length 0) 0 hQ (by decide)
    cases R with
    | nil => simp at hlen
    | cons p ps =>
      rw [List.length_cons, List.replicate_succ, mulLoop, hR, List.cons_append]
      simp only [val_cons] at hval ⊢
      rw [ih ps (by simpa using hlen)]
      linear_combination hval

/-- The schoolbook multiplier gives the product (R59). -/
theorem mul_eq_limbs (A B : Mag) : mul A B = limbs (val A * val B) := by
  have h : List.replicate (A.length + B.length) (0 : Limb)
      = List.replicate B.length 0 ++ List.replicate A.length 0 := by
    rw [List.replicate_append_replicate, Nat.add_comm]
  rw [mul, trim_eq_limbs, h, val_mulLoop _ _ _ (by simp), val_zeros, Nat.zero_add]

/-! ## The limb shifters (R60, R61) -/

/-- The left shifter multiplies by `RADIX ^ k` (R60). -/
theorem shl_eq_limbs (A : Mag) (k : Nat) : shl A k = limbs (val A * RADIX ^ k) := by
  rw [shl, trim_eq_limbs]
  split
  · next h => simp [h]
  · rw [val_append, val_zeros, List.length_replicate, Nat.zero_add, Nat.mul_comm]

/-- The right shifter divides by `RADIX ^ k`, rounding down (R61). -/
theorem shr_eq_limbs (A : Mag) (k : Nat) : shr A k = limbs (val A / RADIX ^ k) := by
  rw [shr, trim_eq_limbs]
  congr 1
  split
  · next h =>
    have := Nat.lt_of_lt_of_le (val_lt A) (Nat.pow_le_pow_right (n := RADIX) (by decide) h)
    rw [Nat.div_eq_of_lt this]; rfl
  · next h =>
    have hv := val_append (A.take k) (A.drop k)
    have hlt := val_lt (A.take k)
    have hlen : (A.take k).length = k := by simp; omega
    rw [List.take_append_drop, hlen] at hv
    rw [hlen] at hlt
    rw [hv, Nat.add_mul_div_left _ _ (by positivity), Nat.div_eq_of_lt hlt, Nat.zero_add]

end Sys2Proof.Mag
end

