-- ==== Sys2Proof/Laws/Memory.lean ====
section
/-! SUPPORT. The byte list of the staging buffer: read after write, and the canonical form is kept. -/

namespace Sys2Proof.Machine

theorem Memory.lookup_write_same (m : Memory) (a : Nat) (b : Byte) :
    Memory.lookup (Memory.write m a b) a = some b := by
  induction m with
  | nil => simp [Memory.write, Memory.lookup]
  | cons e m ih =>
    obtain ⟨k, c⟩ := e
    rw [Memory.write]
    split
    · simp [Memory.lookup]
    · split
      · simp [Memory.lookup]
      · next h => rw [Memory.lookup, if_neg h, ih]

theorem Memory.lookup_write_ne (m : Memory) {a x : Nat} (b : Byte) (h : x ≠ a) :
    Memory.lookup (Memory.write m a b) x = Memory.lookup m x := by
  induction m with
  | nil => simp [Memory.write, Memory.lookup, h]
  | cons e m ih =>
    obtain ⟨k, c⟩ := e
    rw [Memory.write]
    split
    · rw [Memory.lookup, if_neg h]
    · split
      · next hk => rw [Memory.lookup, if_neg h, Memory.lookup, if_neg (hk ▸ h)]
      · rw [Memory.lookup, Memory.lookup, ih]

theorem Memory.mem_write {m : Memory} {a : Nat} {b : Byte} {e : Host.Cell}
    (h : e ∈ Memory.write m a b) : e = (a, b) ∨ e ∈ m := by
  induction m with
  | nil => simpa [Memory.write] using h
  | cons f m ih =>
    obtain ⟨k, c⟩ := f
    rw [Memory.write] at h
    split at h
    · simpa using h
    · split at h
      · rcases List.mem_cons.mp h with h | h
        · exact .inl h
        · exact .inr (List.mem_cons_of_mem _ h)
      · rcases List.mem_cons.mp h with h | h
        · exact .inr (h ▸ List.mem_cons_self)
        · exact (ih h).imp_right (List.mem_cons_of_mem _)

theorem Memory.wf_cons {e : Host.Cell} {m : Memory} :
    Memory.wf (e :: m) = true ↔ (∀ f ∈ m, e.1 < f.1) ∧ Memory.wf m = true := by
  induction m generalizing e with
  | nil => simp [Memory.wf]
  | cons f m ih =>
    obtain ⟨a, b⟩ := e
    obtain ⟨k, c⟩ := f
    rw [Memory.wf, Bool.and_eq_true, decide_eq_true_eq, ih]
    constructor
    · rintro ⟨hak, hm, hw⟩
      refine ⟨fun g hg => ?_, hm, hw⟩
      rcases List.mem_cons.mp hg with rfl | hg
      · exact hak
      · exact Nat.lt_trans hak (hm g hg)
    · rintro ⟨h, hm, hw⟩
      exact ⟨h _ List.mem_cons_self, hm, hw⟩

/-- Every write keeps the canonical form. -/
theorem Memory.wf_write {m : Memory} (h : Memory.wf m = true) (a : Nat) (b : Byte) :
    Memory.wf (Memory.write m a b) = true := by
  induction m with
  | nil => simp [Memory.write, Memory.wf]
  | cons e m ih =>
    obtain ⟨k, c⟩ := e
    obtain ⟨hlt, hw⟩ := Memory.wf_cons.mp h
    rw [Memory.write]
    split
    · next hak =>
      refine Memory.wf_cons.mpr ⟨fun f hf => ?_, h⟩
      rcases List.mem_cons.mp hf with rfl | hf
      · exact hak
      · exact Nat.lt_trans hak (hlt f hf)
    · split
      · next heq => subst heq; exact Memory.wf_cons.mpr ⟨hlt, hw⟩
      · next h1 h2 =>
        refine Memory.wf_cons.mpr ⟨fun f hf => ?_, ih hw⟩
        rcases Memory.mem_write hf with rfl | hf
        · show k < a; omega
        · exact hlt f hf

/-- The four bytes of a word store, as one statement about each byte (R32). -/
theorem State.bufByte_setBufWord (s : State) (off : Nat) (w : Word) (a : Nat) :
    (s.setBufWord off w).bufByte a =
      if off ≤ a ∧ a < off + 4 then w.extractLsb' (8 * (a - off)) 8 else s.bufByte a := by
  unfold State.bufByte State.setBufWord
  dsimp only
  by_cases h3 : a = off + 3
  · subst h3; simp [Memory.lookup_write_same]
  rw [Memory.lookup_write_ne _ _ h3]
  by_cases h2 : a = off + 2
  · subst h2; simp [Memory.lookup_write_same]
  rw [Memory.lookup_write_ne _ _ h2]
  by_cases h1 : a = off + 1
  · subst h1; simp [Memory.lookup_write_same]
  rw [Memory.lookup_write_ne _ _ h1]
  by_cases h0 : a = off
  · subst h0; simp [Memory.lookup_write_same]
  rw [Memory.lookup_write_ne _ _ h0, if_neg (by omega)]

/-- A word read back right after its store is the word stored (R26). -/
theorem State.bufWord_setBufWord_same (s : State) (off : Nat) (w : Word) :
    (s.setBufWord off w).bufWord off = w := by
  simp only [State.bufWord, State.bufByte_setBufWord]
  rw [if_pos (by omega), if_pos (by omega), if_pos (by omega), if_pos (by omega)]
  simp only [Nat.add_sub_cancel_left, Nat.sub_self]
  ext i hi
  simp only [BitVec.getElem_append, BitVec.getElem_extractLsb']
  have key : ∀ k : Nat, k = i → w.getLsbD k = w[i] := fun k hk => by
    subst hk; exact BitVec.getLsbD_eq_getElem hi
  repeat' split
  all_goals exact key _ (by omega)

/-- A word store leaves a word that does not overlap it alone. -/
theorem State.bufWord_setBufWord_ne (s : State) (off off' : Nat) (w : Word)
    (h : off' + 4 ≤ off ∨ off + 4 ≤ off') : (s.setBufWord off w).bufWord off' = s.bufWord off' := by
  simp only [State.bufWord, State.bufByte_setBufWord]
  rw [if_neg (by omega), if_neg (by omega), if_neg (by omega), if_neg (by omega)]

theorem State.buf_setBuf_same (s : State) (j : Nat) (w : Word) : (s.setBuf j w).buf j = w :=
  s.bufWord_setBufWord_same _ _

theorem State.buf_setBuf_ne (s : State) {j k : Nat} (w : Word) (h : k ≠ j) :
    (s.setBuf j w).buf k = s.buf k :=
  s.bufWord_setBufWord_ne _ _ _ (by simp only [bufOffset]; omega)

theorem State.wf_setBufWord (s : State) (off : Nat) (w : Word) (h : Memory.wf s.mem = true) :
    Memory.wf (s.setBufWord off w).mem = true :=
  Memory.wf_write (Memory.wf_write (Memory.wf_write (Memory.wf_write h _ _) _ _) _ _) _ _

/-- A word store lists no byte outside its four. -/
theorem State.mem_setBufWord {s : State} {off : Nat} {w : Word} {e : Host.Cell}
    (h : e ∈ (s.setBufWord off w).mem) : (off ≤ e.1 ∧ e.1 < off + 4) ∨ e ∈ s.mem := by
  rcases Memory.mem_write h with rfl | h
  · exact .inl ⟨by simp, by simp⟩
  rcases Memory.mem_write h with rfl | h
  · exact .inl ⟨by simp, by simp⟩
  rcases Memory.mem_write h with rfl | h
  · exact .inl ⟨by simp, by simp⟩
  exact (Memory.mem_write h).imp_left (fun h => by subst h; exact ⟨by simp, by simp⟩)

end Sys2Proof.Machine
end

