-- ==== Sys2Proof/Laws/State.lean ====
section
/-! SUPPORT. Each field after each update of the state, and what the accessors read after one. -/

namespace Sys2Proof.Machine

variable (s : State)

@[simp] theorem State.setReg_regs (r : RegName) (L : Mag) : (s.setReg r L).regs = s.regs.set r.val L r.isLt := rfl
@[simp] theorem State.setReg_flagEq (r : RegName) (L : Mag) : (s.setReg r L).flagEq = s.flagEq := rfl
@[simp] theorem State.setReg_flagLt (r : RegName) (L : Mag) : (s.setReg r L).flagLt = s.flagLt := rfl
@[simp] theorem State.setReg_busy (r : RegName) (L : Mag) : (s.setReg r L).busy = s.busy := rfl
@[simp] theorem State.setReg_done (r : RegName) (L : Mag) : (s.setReg r L).done = s.done := rfl
@[simp] theorem State.setReg_fault (r : RegName) (L : Mag) : (s.setReg r L).fault = s.fault := rfl
@[simp] theorem State.setReg_rej (r : RegName) (L : Mag) : (s.setReg r L).rej = s.rej := rfl
@[simp] theorem State.setReg_fcause (r : RegName) (L : Mag) : (s.setReg r L).fcause = s.fcause := rfl
@[simp] theorem State.setReg_fcmd (r : RegName) (L : Mag) : (s.setReg r L).fcmd = s.fcmd := rfl
@[simp] theorem State.setReg_buflen (r : RegName) (L : Mag) : (s.setReg r L).buflen = s.buflen := rfl
@[simp] theorem State.setReg_mem (r : RegName) (L : Mag) : (s.setReg r L).mem = s.mem := rfl
@[simp] theorem State.setReg_cur (r : RegName) (L : Mag) : (s.setReg r L).cur = s.cur := rfl
@[simp] theorem State.setReg_lmax (r : RegName) (L : Mag) : (s.setReg r L).lmax = s.lmax := rfl
@[simp] theorem State.setReg_base (r : RegName) (L : Mag) : (s.setReg r L).base = s.base := rfl
@[simp] theorem State.setReg_epoch (r : RegName) (L : Mag) : (s.setReg r L).epoch = s.epoch := rfl
@[simp] theorem State.setReg_draws (r : RegName) (L : Mag) : (s.setReg r L).draws = s.draws := rfl
@[simp] theorem State.setReg_rdata (r : RegName) (L : Mag) : (s.setReg r L).rdata = s.rdata := rfl
@[simp] theorem State.setReg_events (r : RegName) (L : Mag) : (s.setReg r L).events = s.events := rfl

@[simp] theorem State.setBufWord_regs (off : Nat) (w : Word) : (s.setBufWord off w).regs = s.regs := rfl
@[simp] theorem State.setBufWord_flagEq (off : Nat) (w : Word) : (s.setBufWord off w).flagEq = s.flagEq := rfl
@[simp] theorem State.setBufWord_flagLt (off : Nat) (w : Word) : (s.setBufWord off w).flagLt = s.flagLt := rfl
@[simp] theorem State.setBufWord_busy (off : Nat) (w : Word) : (s.setBufWord off w).busy = s.busy := rfl
@[simp] theorem State.setBufWord_done (off : Nat) (w : Word) : (s.setBufWord off w).done = s.done := rfl
@[simp] theorem State.setBufWord_fault (off : Nat) (w : Word) : (s.setBufWord off w).fault = s.fault := rfl
@[simp] theorem State.setBufWord_rej (off : Nat) (w : Word) : (s.setBufWord off w).rej = s.rej := rfl
@[simp] theorem State.setBufWord_fcause (off : Nat) (w : Word) : (s.setBufWord off w).fcause = s.fcause := rfl
@[simp] theorem State.setBufWord_fcmd (off : Nat) (w : Word) : (s.setBufWord off w).fcmd = s.fcmd := rfl
@[simp] theorem State.setBufWord_buflen (off : Nat) (w : Word) : (s.setBufWord off w).buflen = s.buflen := rfl
@[simp] theorem State.setBufWord_cur (off : Nat) (w : Word) : (s.setBufWord off w).cur = s.cur := rfl
@[simp] theorem State.setBufWord_lmax (off : Nat) (w : Word) : (s.setBufWord off w).lmax = s.lmax := rfl
@[simp] theorem State.setBufWord_base (off : Nat) (w : Word) : (s.setBufWord off w).base = s.base := rfl
@[simp] theorem State.setBufWord_epoch (off : Nat) (w : Word) : (s.setBufWord off w).epoch = s.epoch := rfl
@[simp] theorem State.setBufWord_draws (off : Nat) (w : Word) : (s.setBufWord off w).draws = s.draws := rfl
@[simp] theorem State.setBufWord_rdata (off : Nat) (w : Word) : (s.setBufWord off w).rdata = s.rdata := rfl
@[simp] theorem State.setBufWord_events (off : Nat) (w : Word) : (s.setBufWord off w).events = s.events := rfl

@[simp] theorem State.setBuf_regs (j : Nat) (w : Word) : (s.setBuf j w).regs = s.regs := rfl
@[simp] theorem State.setBuf_flagEq (j : Nat) (w : Word) : (s.setBuf j w).flagEq = s.flagEq := rfl
@[simp] theorem State.setBuf_flagLt (j : Nat) (w : Word) : (s.setBuf j w).flagLt = s.flagLt := rfl
@[simp] theorem State.setBuf_busy (j : Nat) (w : Word) : (s.setBuf j w).busy = s.busy := rfl
@[simp] theorem State.setBuf_done (j : Nat) (w : Word) : (s.setBuf j w).done = s.done := rfl
@[simp] theorem State.setBuf_fault (j : Nat) (w : Word) : (s.setBuf j w).fault = s.fault := rfl
@[simp] theorem State.setBuf_rej (j : Nat) (w : Word) : (s.setBuf j w).rej = s.rej := rfl
@[simp] theorem State.setBuf_fcause (j : Nat) (w : Word) : (s.setBuf j w).fcause = s.fcause := rfl
@[simp] theorem State.setBuf_fcmd (j : Nat) (w : Word) : (s.setBuf j w).fcmd = s.fcmd := rfl
@[simp] theorem State.setBuf_buflen (j : Nat) (w : Word) : (s.setBuf j w).buflen = s.buflen := rfl
@[simp] theorem State.setBuf_cur (j : Nat) (w : Word) : (s.setBuf j w).cur = s.cur := rfl
@[simp] theorem State.setBuf_lmax (j : Nat) (w : Word) : (s.setBuf j w).lmax = s.lmax := rfl
@[simp] theorem State.setBuf_base (j : Nat) (w : Word) : (s.setBuf j w).base = s.base := rfl
@[simp] theorem State.setBuf_epoch (j : Nat) (w : Word) : (s.setBuf j w).epoch = s.epoch := rfl
@[simp] theorem State.setBuf_draws (j : Nat) (w : Word) : (s.setBuf j w).draws = s.draws := rfl
@[simp] theorem State.setBuf_rdata (j : Nat) (w : Word) : (s.setBuf j w).rdata = s.rdata := rfl
@[simp] theorem State.setBuf_events (j : Nat) (w : Word) : (s.setBuf j w).events = s.events := rfl

@[simp] theorem State.setFlags_regs (c : Ordering) : (s.setFlags c).regs = s.regs := rfl
@[simp] theorem State.setFlags_flagEq (c : Ordering) : (s.setFlags c).flagEq = (c == .eq) := rfl
@[simp] theorem State.setFlags_flagLt (c : Ordering) : (s.setFlags c).flagLt = (c == .lt) := rfl
@[simp] theorem State.setFlags_busy (c : Ordering) : (s.setFlags c).busy = s.busy := rfl
@[simp] theorem State.setFlags_done (c : Ordering) : (s.setFlags c).done = s.done := rfl
@[simp] theorem State.setFlags_fault (c : Ordering) : (s.setFlags c).fault = s.fault := rfl
@[simp] theorem State.setFlags_rej (c : Ordering) : (s.setFlags c).rej = s.rej := rfl
@[simp] theorem State.setFlags_fcause (c : Ordering) : (s.setFlags c).fcause = s.fcause := rfl
@[simp] theorem State.setFlags_fcmd (c : Ordering) : (s.setFlags c).fcmd = s.fcmd := rfl
@[simp] theorem State.setFlags_buflen (c : Ordering) : (s.setFlags c).buflen = s.buflen := rfl
@[simp] theorem State.setFlags_mem (c : Ordering) : (s.setFlags c).mem = s.mem := rfl
@[simp] theorem State.setFlags_cur (c : Ordering) : (s.setFlags c).cur = s.cur := rfl
@[simp] theorem State.setFlags_lmax (c : Ordering) : (s.setFlags c).lmax = s.lmax := rfl
@[simp] theorem State.setFlags_base (c : Ordering) : (s.setFlags c).base = s.base := rfl
@[simp] theorem State.setFlags_epoch (c : Ordering) : (s.setFlags c).epoch = s.epoch := rfl
@[simp] theorem State.setFlags_draws (c : Ordering) : (s.setFlags c).draws = s.draws := rfl
@[simp] theorem State.setFlags_rdata (c : Ordering) : (s.setFlags c).rdata = s.rdata := rfl
@[simp] theorem State.setFlags_events (c : Ordering) : (s.setFlags c).events = s.events := rfl

@[simp] theorem State.finish_regs : (s.finish).regs = s.regs := rfl
@[simp] theorem State.finish_flagEq : (s.finish).flagEq = s.flagEq := rfl
@[simp] theorem State.finish_flagLt : (s.finish).flagLt = s.flagLt := rfl
@[simp] theorem State.finish_busy : (s.finish).busy = false := rfl
@[simp] theorem State.finish_done : (s.finish).done = true := rfl
@[simp] theorem State.finish_fault : (s.finish).fault = s.fault := rfl
@[simp] theorem State.finish_rej : (s.finish).rej = s.rej := rfl
@[simp] theorem State.finish_fcause : (s.finish).fcause = s.fcause := rfl
@[simp] theorem State.finish_fcmd : (s.finish).fcmd = s.fcmd := rfl
@[simp] theorem State.finish_buflen : (s.finish).buflen = s.buflen := rfl
@[simp] theorem State.finish_mem : (s.finish).mem = s.mem := rfl
@[simp] theorem State.finish_cur : (s.finish).cur = s.cur := rfl
@[simp] theorem State.finish_lmax : (s.finish).lmax = s.lmax := rfl
@[simp] theorem State.finish_base : (s.finish).base = s.base := rfl
@[simp] theorem State.finish_epoch : (s.finish).epoch = s.epoch := rfl
@[simp] theorem State.finish_draws : (s.finish).draws = s.draws := rfl
@[simp] theorem State.finish_rdata : (s.finish).rdata = s.rdata := rfl
@[simp] theorem State.finish_events : (s.finish).events = s.events := rfl

@[simp] theorem State.raise_regs (f : FaultCause) : (s.raise f).regs = s.regs := rfl
@[simp] theorem State.raise_flagEq (f : FaultCause) : (s.raise f).flagEq = s.flagEq := rfl
@[simp] theorem State.raise_flagLt (f : FaultCause) : (s.raise f).flagLt = s.flagLt := rfl
@[simp] theorem State.raise_busy (f : FaultCause) : (s.raise f).busy = false := rfl
@[simp] theorem State.raise_done (f : FaultCause) : (s.raise f).done = s.done := rfl
@[simp] theorem State.raise_fault (f : FaultCause) : (s.raise f).fault = true := rfl
@[simp] theorem State.raise_rej (f : FaultCause) : (s.raise f).rej = s.rej := rfl
@[simp] theorem State.raise_fcause (f : FaultCause) : (s.raise f).fcause = f.code := rfl
@[simp] theorem State.raise_fcmd (f : FaultCause) : (s.raise f).fcmd = s.cur := rfl
@[simp] theorem State.raise_buflen (f : FaultCause) : (s.raise f).buflen = s.buflen := rfl
@[simp] theorem State.raise_mem (f : FaultCause) : (s.raise f).mem = s.mem := rfl
@[simp] theorem State.raise_cur (f : FaultCause) : (s.raise f).cur = s.cur := rfl
@[simp] theorem State.raise_lmax (f : FaultCause) : (s.raise f).lmax = s.lmax := rfl
@[simp] theorem State.raise_base (f : FaultCause) : (s.raise f).base = s.base := rfl
@[simp] theorem State.raise_epoch (f : FaultCause) : (s.raise f).epoch = s.epoch := rfl
@[simp] theorem State.raise_draws (f : FaultCause) : (s.raise f).draws = s.draws := rfl
@[simp] theorem State.raise_rdata (f : FaultCause) : (s.raise f).rdata = s.rdata := rfl
@[simp] theorem State.raise_events (f : FaultCause) : (s.raise f).events = s.events := rfl

@[simp] theorem State.clear_regs (w : Word) : (s.clear w).regs = s.regs := rfl
@[simp] theorem State.clear_flagEq (w : Word) : (s.clear w).flagEq = s.flagEq := rfl
@[simp] theorem State.clear_flagLt (w : Word) : (s.clear w).flagLt = s.flagLt := rfl
@[simp] theorem State.clear_busy (w : Word) : (s.clear w).busy = s.busy := rfl
@[simp] theorem State.clear_done (w : Word) : (s.clear w).done = (s.done && !w.getLsbD 1) := rfl
@[simp] theorem State.clear_fault (w : Word) : (s.clear w).fault = (s.fault && !w.getLsbD 2) := rfl
@[simp] theorem State.clear_rej (w : Word) : (s.clear w).rej = (s.rej && !w.getLsbD 3) := rfl
@[simp] theorem State.clear_fcause (w : Word) : (s.clear w).fcause = (if w.getLsbD 2 then 0 else s.fcause) := rfl
@[simp] theorem State.clear_fcmd (w : Word) : (s.clear w).fcmd = (if w.getLsbD 2 then 0 else s.fcmd) := rfl
@[simp] theorem State.clear_buflen (w : Word) : (s.clear w).buflen = s.buflen := rfl
@[simp] theorem State.clear_mem (w : Word) : (s.clear w).mem = s.mem := rfl
@[simp] theorem State.clear_cur (w : Word) : (s.clear w).cur = s.cur := rfl
@[simp] theorem State.clear_lmax (w : Word) : (s.clear w).lmax = s.lmax := rfl
@[simp] theorem State.clear_base (w : Word) : (s.clear w).base = s.base := rfl
@[simp] theorem State.clear_epoch (w : Word) : (s.clear w).epoch = s.epoch := rfl
@[simp] theorem State.clear_draws (w : Word) : (s.clear w).draws = s.draws := rfl
@[simp] theorem State.clear_rdata (w : Word) : (s.clear w).rdata = s.rdata := rfl
@[simp] theorem State.clear_events (w : Word) : (s.clear w).events = s.events := rfl

@[simp] theorem State.applyReset_regs : (s.applyReset).regs = Vector.replicate 16 [0] := rfl
@[simp] theorem State.applyReset_flagEq : (s.applyReset).flagEq = false := rfl
@[simp] theorem State.applyReset_flagLt : (s.applyReset).flagLt = false := rfl
@[simp] theorem State.applyReset_busy : (s.applyReset).busy = false := rfl
@[simp] theorem State.applyReset_done : (s.applyReset).done = false := rfl
@[simp] theorem State.applyReset_fault : (s.applyReset).fault = false := rfl
@[simp] theorem State.applyReset_rej : (s.applyReset).rej = false := rfl
@[simp] theorem State.applyReset_fcause : (s.applyReset).fcause = 0 := rfl
@[simp] theorem State.applyReset_fcmd : (s.applyReset).fcmd = 0 := rfl
@[simp] theorem State.applyReset_buflen : (s.applyReset).buflen = 0 := rfl
@[simp] theorem State.applyReset_mem : (s.applyReset).mem = [] := rfl
@[simp] theorem State.applyReset_cur : (s.applyReset).cur = 0 := rfl
@[simp] theorem State.applyReset_lmax : (s.applyReset).lmax = s.lmax := rfl
@[simp] theorem State.applyReset_base : (s.applyReset).base = s.base := rfl
@[simp] theorem State.applyReset_epoch : (s.applyReset).epoch = s.epoch + 1 := rfl
@[simp] theorem State.applyReset_draws : (s.applyReset).draws = s.draws := rfl
@[simp] theorem State.applyReset_rdata : (s.applyReset).rdata = s.rdata := rfl
@[simp] theorem State.applyReset_events : (s.applyReset).events = s.events := rfl

/-! ## Registers -/

@[simp] theorem State.reg_setReg_same (r : RegName) (L : Mag) : (s.setReg r L).reg r = L := by
  simp [State.reg]

theorem State.reg_setReg (r q : RegName) (L : Mag) :
    (s.setReg r L).reg q = if r = q then L else s.reg q := by
  simp only [State.reg, State.setReg_regs, Vector.getElem_set, Fin.ext_iff]

@[simp] theorem State.reg_setReg_ne {r q : RegName} (h : q ≠ r) (L : Mag) :
    (s.setReg r L).reg q = s.reg q := by
  rw [State.reg_setReg, if_neg (fun e => h e.symm)]

/-- Two states with the same `regs` read the same from every register. -/
theorem State.reg_congr {s t : State} (h : s.regs = t.regs) (r : RegName) : s.reg r = t.reg r := by
  simp only [State.reg, h]

@[simp] theorem State.setBufWord_reg (off : Nat) (w : Word) (r : RegName) : (s.setBufWord off w).reg r = s.reg r := rfl
@[simp] theorem State.setBuf_reg (j : Nat) (w : Word) (r : RegName) : (s.setBuf j w).reg r = s.reg r := rfl
@[simp] theorem State.setFlags_reg (c : Ordering) (r : RegName) : (s.setFlags c).reg r = s.reg r := rfl
@[simp] theorem State.finish_reg (r : RegName) : (s.finish).reg r = s.reg r := rfl
@[simp] theorem State.raise_reg (f : FaultCause) (r : RegName) : (s.raise f).reg r = s.reg r := rfl
@[simp] theorem State.clear_reg (w : Word) (r : RegName) : (s.clear w).reg r = s.reg r := rfl
@[simp] theorem State.applyReset_reg (r : RegName) : s.applyReset.reg r = [0] := by
  simp [State.reg]

/-! ## The staging buffer -/

/-- Two states with the same byte list and the same epoch read the same bytes. -/
theorem State.bufByte_congr {s t : State} (hm : s.mem = t.mem) (he : s.epoch = t.epoch) (a : Nat) :
    s.bufByte a = t.bufByte a := by
  simp only [State.bufByte, hm, he]

theorem State.buf_congr {s t : State} (hm : s.mem = t.mem) (he : s.epoch = t.epoch) (j : Nat) :
    s.buf j = t.buf j := by
  simp only [State.buf, State.bufWord, State.bufByte_congr hm he]

@[simp] theorem State.setReg_bufByte (r : RegName) (L : Mag) (a : Nat) : (s.setReg r L).bufByte a = s.bufByte a := rfl
@[simp] theorem State.setFlags_bufByte (c : Ordering) (a : Nat) : (s.setFlags c).bufByte a = s.bufByte a := rfl
@[simp] theorem State.finish_bufByte (a : Nat) : (s.finish).bufByte a = s.bufByte a := rfl
@[simp] theorem State.raise_bufByte (f : FaultCause) (a : Nat) : (s.raise f).bufByte a = s.bufByte a := rfl
@[simp] theorem State.clear_bufByte (w : Word) (a : Nat) : (s.clear w).bufByte a = s.bufByte a := rfl

/-! ## Storing limbs (R54) -/

@[simp] theorem State.storeLimbs_regs (L : Mag) (j : Nat) : (s.storeLimbs j L).regs = s.regs := by
  induction L generalizing s j with
  | nil => rfl
  | cons l ls ih => rw [State.storeLimbs, ih, State.setBuf_regs]

@[simp] theorem State.storeLimbs_flagEq (L : Mag) (j : Nat) : (s.storeLimbs j L).flagEq = s.flagEq := by
  induction L generalizing s j with
  | nil => rfl
  | cons l ls ih => rw [State.storeLimbs, ih, State.setBuf_flagEq]

@[simp] theorem State.storeLimbs_flagLt (L : Mag) (j : Nat) : (s.storeLimbs j L).flagLt = s.flagLt := by
  induction L generalizing s j with
  | nil => rfl
  | cons l ls ih => rw [State.storeLimbs, ih, State.setBuf_flagLt]

@[simp] theorem State.storeLimbs_busy (L : Mag) (j : Nat) : (s.storeLimbs j L).busy = s.busy := by
  induction L generalizing s j with
  | nil => rfl
  | cons l ls ih => rw [State.storeLimbs, ih, State.setBuf_busy]

@[simp] theorem State.storeLimbs_done (L : Mag) (j : Nat) : (s.storeLimbs j L).done = s.done := by
  induction L generalizing s j with
  | nil => rfl
  | cons l ls ih => rw [State.storeLimbs, ih, State.setBuf_done]

@[simp] theorem State.storeLimbs_fault (L : Mag) (j : Nat) : (s.storeLimbs j L).fault = s.fault := by
  induction L generalizing s j with
  | nil => rfl
  | cons l ls ih => rw [State.storeLimbs, ih, State.setBuf_fault]

@[simp] theorem State.storeLimbs_rej (L : Mag) (j : Nat) : (s.storeLimbs j L).rej = s.rej := by
  induction L generalizing s j with
  | nil => rfl
  | cons l ls ih => rw [State.storeLimbs, ih, State.setBuf_rej]

@[simp] theorem State.storeLimbs_fcause (L : Mag) (j : Nat) : (s.storeLimbs j L).fcause = s.fcause := by
  induction L generalizing s j with
  | nil => rfl
  | cons l ls ih => rw [State.storeLimbs, ih, State.setBuf_fcause]

@[simp] theorem State.storeLimbs_fcmd (L : Mag) (j : Nat) : (s.storeLimbs j L).fcmd = s.fcmd := by
  induction L generalizing s j with
  | nil => rfl
  | cons l ls ih => rw [State.storeLimbs, ih, State.setBuf_fcmd]

@[simp] theorem State.storeLimbs_buflen (L : Mag) (j : Nat) : (s.storeLimbs j L).buflen = s.buflen := by
  induction L generalizing s j with
  | nil => rfl
  | cons l ls ih => rw [State.storeLimbs, ih, State.setBuf_buflen]

@[simp] theorem State.storeLimbs_cur (L : Mag) (j : Nat) : (s.storeLimbs j L).cur = s.cur := by
  induction L generalizing s j with
  | nil => rfl
  | cons l ls ih => rw [State.storeLimbs, ih, State.setBuf_cur]

@[simp] theorem State.storeLimbs_lmax (L : Mag) (j : Nat) : (s.storeLimbs j L).lmax = s.lmax := by
  induction L generalizing s j with
  | nil => rfl
  | cons l ls ih => rw [State.storeLimbs, ih, State.setBuf_lmax]

@[simp] theorem State.storeLimbs_base (L : Mag) (j : Nat) : (s.storeLimbs j L).base = s.base := by
  induction L generalizing s j with
  | nil => rfl
  | cons l ls ih => rw [State.storeLimbs, ih, State.setBuf_base]

@[simp] theorem State.storeLimbs_epoch (L : Mag) (j : Nat) : (s.storeLimbs j L).epoch = s.epoch := by
  induction L generalizing s j with
  | nil => rfl
  | cons l ls ih => rw [State.storeLimbs, ih, State.setBuf_epoch]

@[simp] theorem State.storeLimbs_draws (L : Mag) (j : Nat) : (s.storeLimbs j L).draws = s.draws := by
  induction L generalizing s j with
  | nil => rfl
  | cons l ls ih => rw [State.storeLimbs, ih, State.setBuf_draws]

@[simp] theorem State.storeLimbs_rdata (L : Mag) (j : Nat) : (s.storeLimbs j L).rdata = s.rdata := by
  induction L generalizing s j with
  | nil => rfl
  | cons l ls ih => rw [State.storeLimbs, ih, State.setBuf_rdata]

@[simp] theorem State.storeLimbs_events (L : Mag) (j : Nat) : (s.storeLimbs j L).events = s.events := by
  induction L generalizing s j with
  | nil => rfl
  | cons l ls ih => rw [State.storeLimbs, ih, State.setBuf_events]

end Sys2Proof.Machine
end

