-- ==== Sys2Proof/Laws/Ops.lean ====
section
/-! SUPPORT. What each shared operation can do, said once. -/

namespace Sys2Proof.Machine

/-- A register write succeeds exactly when the sequence fits (R13). -/
theorem State.writeReg_eq_ok {s t : State} {r : RegName} {L : Mag} :
    s.writeReg r L = .ok t ↔ L.length ≤ s.lmax ∧ t = s.setReg r L := by
  rw [State.writeReg]
  split
  · next h => simp; omega
  · next h => simp only [Except.ok.injEq, eq_comm (a := t)]; constructor <;> intro h' <;> simp_all

/-- A register write that fails fails for capacity (R13). -/
theorem State.writeReg_eq_error {s : State} {r : RegName} {L : Mag} {f : FaultCause} :
    s.writeReg r L = .error f ↔ s.lmax < L.length ∧ f = .capacityOverflow := by
  rw [State.writeReg]
  split
  · next h => simp [h, eq_comm]
  · next h => simp [h]

theorem State.writeReg_of_fits {s : State} (r : RegName) {L : Mag} (h : L.length ≤ s.lmax) :
    s.writeReg r L = .ok (s.setReg r L) :=
  State.writeReg_eq_ok.mpr ⟨h, rfl⟩

theorem State.writeReg_of_overflow {s : State} (r : RegName) {L : Mag} (h : s.lmax < L.length) :
    s.writeReg r L = .error .capacityOverflow :=
  State.writeReg_eq_error.mpr ⟨h, rfl⟩

@[simp] theorem State.complete_ok (s t : State) : s.complete (.ok t) = t.finish := rfl
@[simp] theorem State.complete_error (s : State) (f : FaultCause) : s.complete (.error f) = s.raise f := rfl

/-- The code of a cause is one of 1 to 6 (R75). -/
theorem FaultCause.code_range (f : FaultCause) : 1 ≤ f.code.toNat ∧ f.code.toNat ≤ 6 := by
  cases f <;> decide

/-- Different causes have different codes (R75). -/
theorem FaultCause.code_inj {f g : FaultCause} (h : f.code = g.code) : f = g := by
  cases f <;> cases g <;> first | rfl | exact absurd h (by decide)

/-! ## Storing limbs (R54) -/

/-- Storing limbs from word `j` changes no byte outside their words. -/
theorem State.storeLimbs_bufByte_outside (s : State) (L : Mag) (j a : Nat)
    (h : a < bufOffset j ∨ bufOffset (j + L.length) ≤ a) : (s.storeLimbs j L).bufByte a = s.bufByte a := by
  induction L generalizing s j with
  | nil => rfl
  | cons l ls ih =>
    simp only [bufOffset, List.length_cons] at h
    rw [State.storeLimbs, ih _ _ (by simp only [bufOffset]; omega), State.setBuf,
      State.bufByte_setBufWord, if_neg (by simp only [bufOffset]; omega)]

theorem State.storeLimbs_buf_below (s : State) (L : Mag) {j k : Nat} (h : k < j) :
    (s.storeLimbs j L).buf k = s.buf k := by
  have hb : ∀ a, a < bufOffset j → (s.storeLimbs j L).bufByte a = s.bufByte a :=
    fun a ha => s.storeLimbs_bufByte_outside L j a (.inl ha)
  simp only [bufOffset] at hb
  simp only [State.buf, State.bufWord, bufOffset]
  rw [hb _ (by omega), hb _ (by omega), hb _ (by omega), hb _ (by omega)]

/-- Storing limbs from word `j` puts limb `i` into word `j + i`. -/
theorem State.storeLimbs_buf (s : State) (L : Mag) (j i : Nat) (h : i < L.length) :
    (s.storeLimbs j L).buf (j + i) = limbWord L[i] := by
  induction L generalizing s j i with
  | nil => simp at h
  | cons l ls ih =>
    rw [State.storeLimbs]
    cases i with
    | zero => rw [State.storeLimbs_buf_below _ _ (by omega)]; exact State.buf_setBuf_same ..
    | succ i =>
      have := ih (s.setBuf j (limbWord l)) (j + 1) i (by simpa using h)
      rw [show j + (i + 1) = j + 1 + i by omega, this]; rfl

theorem State.wf_storeLimbs (s : State) (L : Mag) (j : Nat) (h : Memory.wf s.mem = true) :
    Memory.wf (s.storeLimbs j L).mem = true := by
  induction L generalizing s j with
  | nil => exact h
  | cons l ls ih => exact ih _ _ (s.wf_setBufWord _ _ h)

/-- Storing limbs lists no byte outside their words. -/
theorem State.mem_storeLimbs {s : State} {L : Mag} {j : Nat} {e : Host.Cell}
    (h : e ∈ (s.storeLimbs j L).mem) :
    (bufOffset j ≤ e.1 ∧ e.1 < bufOffset (j + L.length)) ∨ e ∈ s.mem := by
  induction L generalizing s j with
  | nil => exact .inr h
  | cons l ls ih =>
    simp only [bufOffset, List.length_cons] at *
    rcases ih h with h | h
    · exact .inl (by omega)
    · rcases State.mem_setBufWord h with h | h
      · simp only [bufOffset] at h; exact .inl (by omega)
      · exact .inr h

/-- A limb stored as a word reads as its own number (R31, R54). -/
@[simp] theorem limbWord_toNat (l : Limb) : (limbWord l).toNat = l.val := by
  have := l.isLt
  rw [limbWord, BitVec.toNat_ofNat, Nat.mod_eq_of_lt (by omega)]

/-! ## Loading words (R53) -/

theorem Mag.val_map_limbOf (f : Nat → Nat) (n : Nat) (h : ∀ j, j < n → f j < RADIX) :
    Mag.val ((List.range n).map fun j => Mag.limbOf (f j)) = ∑ j ∈ Finset.range n, f j * RADIX ^ j := by
  induction n with
  | zero => rfl
  | succ n ih =>
    rw [List.range_succ, List.map_append, Mag.val_append, ih (fun j hj => h j (by omega)),
      Finset.sum_range_succ, List.length_map, List.length_range]
    simp [Nat.mod_eq_of_lt (h n (by omega)), Nat.mul_comm]

end Sys2Proof.Machine
end

