-- ==== Sys2Proof/Laws/Exec.lean ====
section
/-! SUPPORT. What a command can do: every meaning is a completion, and a completion without a fault is
one of five kinds. -/

namespace Sys2Proof.Machine

/-- What each command yields, fault or writes, before its completion. -/
def resultOf (i : Instr) (s : State) : CommandResult :=
  match i with
  | .nop => .ok s
  | .ld rd n => loadResult rd (immValue n) s
  | .st ra => .ok { s.storeLimbs 0 (s.reg ra) with buflen := BitVec.ofNat 16 (s.reg ra).length }
  | .mov rd ra => s.writeReg rd (s.reg ra)
  | .ldi rd imm => s.writeReg rd [Mag.limbOf (immValue imm)]
  | .add rd ra rb => s.writeReg rd (Mag.add (s.reg ra) (s.reg rb))
  | .sub rd ra rb =>
    if Mag.cmp (s.reg ra) (s.reg rb) = .lt then .error .subUnderflow
    else s.writeReg rd (Mag.sub (s.reg ra) (s.reg rb))
  | .mul rd ra rb => s.writeReg rd (Mag.mul (s.reg ra) (s.reg rb))
  | .shl rd ra k => s.writeReg rd (Mag.shl (s.reg ra) (immValue k))
  | .shr rd ra k => s.writeReg rd (Mag.shr (s.reg ra) (immValue k))
  | .cmp ra rb => .ok (s.setFlags (Mag.cmp (s.reg ra) (s.reg rb)))
  | .divrem rd rc ra rb => divremResult rd rc ra rb s
  | .rem rd ra rb =>
    if s.value rb = 0 then .error .divisionByZero
    else s.writeReg rd (Mag.limbs (Divider.divRem (s.value ra) (s.value rb)).2)
  | .canon rd ra rc => s.modResult rd rc (Modular.canon (s.value ra) (s.value rc))
  | .addmod rd ra rb rc => s.modResult rd rc (Modular.addMod (s.value ra) (s.value rb) (s.value rc))
  | .submod rd ra rb rc => s.modResult rd rc (Modular.subMod (s.value ra) (s.value rb) (s.value rc))
  | .mulmod rd ra rb rc => s.modResult rd rc (Modular.mulMod (s.value ra) (s.value rb) (s.value rc))
  | .powmod rd ra rb rc => s.modResult rd rc (Modular.powMod (s.value ra) (s.value rb) (s.value rc))

/-- Every command completes: its meaning answers a next state in every state (R21, R89). -/
theorem exec_eq (i : Instr) (s : State) : exec i s = .next (s.complete (resultOf i s)) := by
  cases i <;> rfl

theorem exec_eq_next {i : Instr} {s t : State} : exec i s = .next t ↔ t = s.complete (resultOf i s) := by
  rw [exec_eq, Host.Outcome.next.injEq, eq_comm]

/-- The writes of a command that does not fault. -/
inductive Writes (i : Instr) (s : State) : State → Prop where
  | none : i = .nop → Writes i s s
  | flags (ra rb : RegName) : i = .cmp ra rb → Writes i s (s.setFlags (Mag.cmp (s.reg ra) (s.reg rb)))
  | buffer (ra : RegName) : i = .st ra →
      Writes i s { s.storeLimbs 0 (s.reg ra) with buflen := BitVec.ofNat 16 (s.reg ra).length }
  | register (r : RegName) (L : Mag) : i.destinations = [r] → L.length ≤ s.lmax →
      ((∀ q, Mag.Normal (s.reg q)) → Mag.Normal L) → Writes i s (s.setReg r L)
  | registers (r q : RegName) (L K : Mag) : i.destinations = [r, q] → r ≠ q → L.length ≤ s.lmax →
      K.length ≤ s.lmax → Mag.Normal L → Mag.Normal K → Writes i s ((s.setReg r L).setReg q K)

theorem Writes.of_writeReg {i : Instr} {s t : State} {r : RegName} {L : Mag}
    (h : s.writeReg r L = .ok t) (hd : i.destinations = [r])
    (hn : (∀ q, Mag.Normal (s.reg q)) → Mag.Normal L) : Writes i s t := by
  obtain ⟨hl, rfl⟩ := State.writeReg_eq_ok.mp h
  exact .register r L hd hl hn

theorem Writes.of_modResult {i : Instr} {s t : State} {r rc : RegName} {v : Nat}
    (h : s.modResult r rc v = .ok t) (hd : i.destinations = [r]) : Writes i s t := by
  rw [State.modResult] at h
  split at h
  · cases h
  · exact .of_writeReg h hd fun _ => Mag.limbs_normal _

/-- A command that does not fault makes one of five kinds of writes. -/
theorem resultOf_ok {i : Instr} {s t : State} (h : resultOf i s = .ok t) : Writes i s t := by
  cases i with
  | nop => cases h; exact .none rfl
  | cmp ra rb => cases h; exact .flags ra rb rfl
  | st ra => cases h; exact .buffer ra rfl
  | ld rd n =>
    rw [resultOf, loadResult] at h
    split at h
    · cases h
    · split at h
      · exact .of_writeReg h rfl fun _ => Mag.trim_normal _
      · cases h
  | mov rd ra => exact .of_writeReg h rfl fun hn => hn ra
  | ldi rd imm => exact .of_writeReg h rfl fun _ => ⟨by simp, .inl rfl⟩
  | add rd ra rb => exact .of_writeReg h rfl fun _ => Mag.trim_normal _
  | sub rd ra rb =>
    rw [resultOf] at h
    split at h
    · cases h
    · exact .of_writeReg h rfl fun _ => Mag.trim_normal _
  | mul rd ra rb => exact .of_writeReg h rfl fun _ => Mag.trim_normal _
  | shl rd ra k => exact .of_writeReg h rfl fun _ => Mag.trim_normal _
  | shr rd ra k => exact .of_writeReg h rfl fun _ => Mag.trim_normal _
  | divrem rd rc ra rb =>
    rw [resultOf, divremResult] at h
    split at h
    · cases h
    · next hne =>
      split at h
      · cases h
      · dsimp only at h
        split at h
        · cases h
        · next u hu =>
          obtain ⟨h1, rfl⟩ := State.writeReg_eq_ok.mp hu
          obtain ⟨h2, rfl⟩ := State.writeReg_eq_ok.mp h
          exact .registers rd rc _ _ rfl hne h1 h2 (Mag.limbs_normal _) (Mag.limbs_normal _)
  | rem rd ra rb =>
    rw [resultOf] at h
    split at h
    · cases h
    · exact .of_writeReg h rfl fun _ => Mag.limbs_normal _
  | canon rd ra rc => exact .of_modResult h rfl
  | addmod rd ra rb rc => exact .of_modResult h rfl
  | submod rd ra rb rc => exact .of_modResult h rfl
  | mulmod rd ra rb rc => exact .of_modResult h rfl
  | powmod rd ra rb rc => exact .of_modResult h rfl

/-! ## Moving the port's fields out of the way -/

/-- `s` with other values in the three fields that only host accesses change while a command is in
flight. -/
def State.withPort (s : State) (rej : Bool) (rdata : Word) (draws : Nat) : State :=
  { s with rej := rej, rdata := rdata, draws := draws }

theorem State.withPort_storeLimbs (s : State) (rej : Bool) (rdata : Word) (draws : Nat) (L : Mag)
    (j : Nat) : (s.withPort rej rdata draws).storeLimbs j L = (s.storeLimbs j L).withPort rej rdata draws := by
  induction L generalizing s j with
  | nil => rfl
  | cons l ls ih => exact ih (s.setBuf j (limbWord l)) (j + 1)

theorem State.withPort_writeReg (s : State) (rej : Bool) (rdata : Word) (draws : Nat) (r : RegName)
    (L : Mag) : (s.withPort rej rdata draws).writeReg r L
      = (s.writeReg r L).map fun t => t.withPort rej rdata draws := by
  by_cases h : s.lmax < L.length
  · rw [State.writeReg_of_overflow r h]
    exact State.writeReg_of_overflow (s := s.withPort rej rdata draws) r h
  · rw [State.writeReg_of_fits r (Nat.not_lt.mp h)]
    exact State.writeReg_of_fits (s := s.withPort rej rdata draws) r (Nat.not_lt.mp h)

/-- A command neither reads nor writes those fields. -/
theorem resultOf_withPort (i : Instr) (s : State) (rej : Bool) (rdata : Word) (draws : Nat) :
    resultOf i (s.withPort rej rdata draws)
      = (resultOf i s).map fun t => t.withPort rej rdata draws := by
  have hreg : ∀ r, (s.withPort rej rdata draws).reg r = s.reg r := fun _ => rfl
  have hval : ∀ r, (s.withPort rej rdata draws).value r = s.value r := fun _ => rfl
  cases i
  case nop => rfl
  case cmp => rfl
  case st ra => simp only [resultOf, hreg, State.withPort_storeLimbs]; rfl
  case ld rd n =>
    have hw : (s.withPort rej rdata draws).bufWords (immValue n) = s.bufWords (immValue n) := rfl
    have hl : (s.withPort rej rdata draws).lmax = s.lmax := rfl
    simp only [resultOf, loadResult, hw, hl, State.withPort_writeReg]
    split
    · rfl
    · split <;> rfl
  case divrem rd rc ra rb =>
    simp only [resultOf, divremResult, hval, State.withPort_writeReg]
    split
    · rfl
    · split
      · rfl
      · cases s.writeReg rd (Mag.limbs (Divider.divRem (s.value ra) (s.value rb)).1) with
        | error f => rfl
        | ok t => exact t.withPort_writeReg ..
  all_goals simp only [resultOf, State.modResult, hreg, hval, State.withPort_writeReg]
  all_goals first | rfl | (split <;> rfl)

end Sys2Proof.Machine
end

