-- ==== Sys2Proof/Laws/Port.lean ====
section
/-! SUPPORT. What a host access can do, said once. -/

namespace Sys2Proof.Machine

/-- An aligned word inside the window has a meaning (R33). -/
theorem State.offsetOf_base (s : State) {off : Nat} (h4 : off % 4 = 0) (hw : off < windowBytes) :
    s.offsetOf (s.base + off) 4 = .ok off := by
  rw [State.offsetOf, if_neg (by simp), if_neg (by omega), Nat.add_sub_cancel_left, if_neg (by omega)]

/-- Exactly the aligned words inside the window have a meaning (R33). -/
theorem State.offsetOf_eq_ok {s : State} {addr bytes off : Nat} :
    s.offsetOf addr bytes = .ok off ↔
      bytes = 4 ∧ addr = s.base + off ∧ off < windowBytes ∧ off % 4 = 0 := by
  constructor
  · intro h
    rw [State.offsetOf] at h
    split at h
    · cases h
    · split at h
      · cases h
      · split at h
        · cases h
        · cases h; omega
  · rintro ⟨rfl, rfl, hw, h4⟩
    exact s.offsetOf_base h4 hw

theorem State.hostAccess_read (s : State) {off : Nat} (h4 : off % 4 = 0) (hw : off < windowBytes) :
    s.hostAccess (.read (s.base + off) 4) = .next (s.hostRead off) := by
  rw [State.hostAccess, s.offsetOf_base h4 hw]

theorem State.hostAccess_write (s : State) {off : Nat} (h4 : off % 4 = 0) (hw : off < windowBytes)
    (w : Word) : s.hostAccess (.write (s.base + off) 4 w) = .next (s.hostWrite off w) := by
  rw [State.hostAccess, s.offsetOf_base h4 hw]

/-- An access that is not refused is a read or a write at an aligned offset of the window. -/
theorem State.hostAccess_eq_next {s t : State} {a : HostAccess} (h : s.hostAccess a = .next t) :
    ∃ off, off < windowBytes ∧ off % 4 = 0 ∧
      ((a = .read (s.base + off) 4 ∧ t = s.hostRead off) ∨
        ∃ w, a = .write (s.base + off) 4 w ∧ t = s.hostWrite off w) := by
  cases a with
  | read addr bytes =>
    rw [State.hostAccess] at h
    split at h
    · next off ho =>
      obtain ⟨rfl, rfl, hw, h4⟩ := State.offsetOf_eq_ok.mp ho
      cases h; exact ⟨off, hw, h4, .inl ⟨rfl, rfl⟩⟩
    · cases h
  | write addr bytes w =>
    rw [State.hostAccess] at h
    split at h
    · next off ho =>
      obtain ⟨rfl, rfl, hw, h4⟩ := State.offsetOf_eq_ok.mp ho
      cases h; exact ⟨off, hw, h4, .inr ⟨w, rfl, rfl⟩⟩
    · cases h

/-- The window's map at a buffer word (R18). -/
theorem windowReg_buf {lmax j : Nat} (h : j < lmax) : windowReg lmax (0x100 + 4 * j) = .buf j := by
  have : 0x100 ≤ 0x100 + 4 * j ∧ 0x100 + 4 * j < bufOffset lmax := by
    simp only [bufOffset]; omega
  rw [windowReg, if_neg (by omega), if_neg (by omega), if_neg (by omega), if_neg (by omega),
    if_neg (by omega), if_neg (by omega), if_neg (by omega), if_pos this]
  congr 1; omega

/-- The window's map at a reserved offset (R35). -/
theorem windowReg_reserved {lmax off : Nat} (h4 : off % 4 = 0)
    (h : (0x1C ≤ off ∧ off ≤ 0xFC) ∨ 0x100 + 4 * lmax ≤ off) : windowReg lmax off = .reserved := by
  have : ¬(0x100 ≤ off ∧ off < bufOffset lmax) := by simp only [bufOffset]; omega
  rw [windowReg, if_neg (by omega), if_neg (by omega), if_neg (by omega), if_neg (by omega),
    if_neg (by omega), if_neg (by omega), if_neg (by omega), if_neg this]

/-- A buffer word of the map lies in the buffer (R18). -/
theorem windowReg_eq_buf {lmax off j : Nat} (h : windowReg lmax off = .buf j) : j < lmax := by
  rw [windowReg] at h
  split_ifs at h with h1 h2 h3 h4 h5 h6 h7 h8
  have := WindowReg.buf.inj h
  simp only [bufOffset] at h8
  omega

/-- A read changes the value read, and the count of free values only when it returns one (R34). -/
theorem State.hostRead_eq (s : State) (off : Nat) :
    s.hostRead off = { s with rdata := (s.hostRead off).rdata, draws := (s.hostRead off).draws } ∧
      ((s.hostRead off).draws = s.draws ∨ (s.busy = true ∧ ∃ j, windowReg s.lmax off = .buf j)) := by
  rw [State.hostRead]
  split
  · next j hj =>
    by_cases hb : s.busy = true
    · rw [if_pos hb]; exact ⟨rfl, .inr ⟨hb, j, hj⟩⟩
    · rw [if_neg hb]; exact ⟨rfl, .inl rfl⟩
  · exact ⟨rfl, .inl rfl⟩

/-- What a write of the host can do. -/
inductive HostWritten (s : State) (w : Word) : WindowReg → State → Prop where
  | ignored (r : WindowReg) : r ≠ .cmd → r ≠ .clear → (∀ j, r ≠ .buf j) → HostWritten s w r s
  | accepted : s.busy = false → s.fault = false →
      HostWritten s w .cmd { s with cur := w, busy := true, done := false }
  | rejected : s.busy = true ∨ s.fault = true → HostWritten s w .cmd { s with rej := true }
  | cleared : HostWritten s w .clear (s.clear w)
  | stored (j : Nat) : s.busy = false → j < s.lmax → HostWritten s w (.buf j) (s.setBuf j w)
  | dropped (j : Nat) : s.busy = true → HostWritten s w (.buf j) { s with rej := true }

theorem State.hostWrite_spec (s : State) (off : Nat) (w : Word) :
    HostWritten s w (windowReg s.lmax off) (s.hostWrite off w) := by
  rw [State.hostWrite]
  cases hr : windowReg s.lmax off with
  | cmd =>
    dsimp only
    rw [State.writeCmd]
    split
    · next h => exact .accepted h.1 h.2
    · next h =>
      refine .rejected ?_
      cases hb : s.busy <;> cases hf : s.fault <;> simp_all
  | clear => exact .cleared
  | buf j =>
    dsimp only
    rw [State.hostWriteBuf]
    split
    · next hb => exact .dropped j hb
    · next hb => exact .stored j (by simpa using hb) (windowReg_eq_buf hr)
  | _ => exact .ignored _ (by simp) (by simp) (by simp)

end Sys2Proof.Machine
end

