-- ==== Sys2Proof/Laws/Invariant.lean ====
section
/-! SUPPORT. What one turn can do, said once, and each shared operation under the invariant of the
block. -/

namespace Sys2Proof.Machine

/-- What the word in flight yields: its command's result, or `IllegalCommand` (R48). -/
def State.currentResult (s : State) : CommandResult :=
  match decode s.cur with
  | .ok i => resultOf i s
  | .error _ => .error .illegalCommand

/-- A completion always answers a next state (R89). -/
theorem State.completeCurrent_eq (s : State) :
    s.completeCurrent = .next (s.complete s.currentResult) := by
  rw [State.completeCurrent, State.currentResult]
  cases decode s.cur with
  | ok i => exact exec_eq i s
  | error e => rfl

/-- A completion that writes is the completion of the command the word decodes to. -/
theorem State.currentResult_ok {s t : State} (h : s.currentResult = .ok t) :
    ∃ i, decode s.cur = .ok i ∧ resultOf i s = .ok t := by
  rw [State.currentResult] at h
  split at h
  · next i hi => exact ⟨i, hi, h⟩
  · cases h

/-- What one step that answers a next state is. -/
theorem step_eq_next {s t : State} (h : step s = .next t) :
    (s.events = [] ∧ s.engineTurn = .next t) ∨
    (∃ es, s.events = .engine :: es ∧ State.engineTurn { s with events := es } = .next t) ∨
    (∃ a es, s.events = .access a :: es ∧ State.hostAccess { s with events := es } a = .next t) ∨
    (∃ es, s.events = .rst :: es ∧ t = State.applyReset { s with events := es }) := by
  rw [step] at h
  split at h
  · next he => exact .inl ⟨he, h⟩
  · next es he => exact .inr (.inl ⟨es, he, h⟩)
  · next a es he => exact .inr (.inr (.inl ⟨a, es, he, h⟩))
  · next es he => cases h; exact .inr (.inr (.inr ⟨es, he, rfl⟩))

/-! ## The invariant, one operation at a time -/

/-- The fields the invariant does not speak of. -/
theorem State.Inv.ofEvents {s : State} (h : s.Inv) (es : List Event) :
    ({ s with events := es } : State).Inv :=
  ⟨h.1, h.2, h.3, h.4, h.5, h.6, h.7, h.8, h.9, h.10, h.11, h.12, h.13⟩

theorem State.Inv.ofRead {s : State} (h : s.Inv) (rdata : Word) (draws : Nat) :
    ({ s with rdata := rdata, draws := draws } : State).Inv :=
  ⟨h.1, h.2, h.3, h.4, h.5, h.6, h.7, h.8, h.9, h.10, h.11, h.12, h.13⟩

theorem State.Inv.ofRejected {s : State} (h : s.Inv) : ({ s with rej := true } : State).Inv :=
  ⟨h.1, h.2, h.3, h.4, h.5, h.6, h.7, h.8, h.9, h.10, h.11, h.12, h.13⟩

/-- A fault of the command in flight (R76). -/
theorem State.Inv.raise {s : State} (h : s.Inv) (hb : s.busy = true) (f : FaultCause) :
    (s.raise f).Inv :=
  ⟨h.1, h.2, h.3, h.4, h.5, h.6, by simp, fun _ => (h.busy_alone hb).1, by simp,
    fun _ => f.code_range, h.11, h.12, h.13⟩

/-- A completion without a fault, where none is latched (R21). -/
theorem State.Inv.finish {s : State} (h : s.Inv) (hf : s.fault = false) : s.finish.Inv :=
  ⟨h.1, h.2, h.3, h.4, h.5, h.6, by simp, by simp [hf], h.9, h.10, h.11, h.12, h.13⟩

/-- A register write of a normal form that fits (R11, R13). -/
theorem State.Inv.setReg {s : State} (h : s.Inv) (r : RegName) {L : Mag} (hn : Mag.Normal L)
    (hl : L.length ≤ s.lmax) : (s.setReg r L).Inv := by
  refine ⟨h.1, h.2, h.3, fun q => ?_, fun q => ?_, h.6, h.7, h.8, h.9, h.10, h.11, h.12, h.13⟩ <;>
    by_cases hq : q = r
  · subst hq; simpa using hn
  · rw [State.reg_setReg_ne _ hq]; exact h.4 q
  · subst hq; simpa using hl
  · rw [State.reg_setReg_ne _ hq]; exact h.5 q

/-- The flags a comparison leaves (R17). -/
theorem State.Inv.setFlags {s : State} (h : s.Inv) (c : Ordering) : (s.setFlags c).Inv :=
  ⟨h.1, h.2, h.3, h.4, h.5, by cases c <;> simp, h.7, h.8, h.9, h.10, h.11, h.12, h.13⟩

/-- A host write to a buffer word (R26). -/
theorem State.Inv.setBuf {s : State} (h : s.Inv) {j : Nat} (hj : j < s.lmax) (w : Word) :
    (s.setBuf j w).Inv := by
  refine ⟨h.1, h.2, h.3, h.4, h.5, h.6, h.7, h.8, h.9, h.10, h.11, s.wf_setBufWord _ _ h.12,
    fun e he => ?_⟩
  rcases State.mem_setBufWord he with h' | h'
  · show _ ∧ e.1 < bufOffset s.lmax
    simp only [bufOffset] at *; omega
  · exact h.13 e h'

/-- The limbs of a register and their number to the buffer (R54). -/
theorem State.Inv.store {s : State} (h : s.Inv) (ra : RegName) :
    ({ s.storeLimbs 0 (s.reg ra) with
        buflen := BitVec.ofNat 16 (s.reg ra).length } : State).Inv := by
  have hl := h.regs_fit ra
  have hm := h.lmax_le
  have hr : ∀ q, (s.storeLimbs 0 (s.reg ra)).reg q = s.reg q := fun q => State.reg_congr (by simp) q
  refine ⟨by simpa using h.1, by simpa using h.2, by simpa using h.3, fun q => ?_, fun q => ?_,
    by simpa using h.6, by simpa using h.7, by simpa using h.8, by simpa using h.9,
    by simpa using h.10, ?_, s.wf_storeLimbs _ _ h.12, fun e he => ?_⟩
  · show Mag.Normal ((s.storeLimbs 0 (s.reg ra)).reg q)
    rw [hr]; exact h.4 q
  · show ((s.storeLimbs 0 (s.reg ra)).reg q).length ≤ (s.storeLimbs 0 (s.reg ra)).lmax
    rw [hr]; simpa using h.5 q
  · show (BitVec.ofNat 16 (s.reg ra).length).toNat ≤ _
    rw [BitVec.toNat_ofNat, Nat.mod_eq_of_lt (by omega)]; simpa using hl
  · show _ ∧ e.1 < bufOffset (s.storeLimbs 0 (s.reg ra)).lmax
    rw [show (s.storeLimbs 0 (s.reg ra)).lmax = s.lmax by simp]
    rcases State.mem_storeLimbs he with h' | h'
    · simp only [bufOffset] at *; omega
    · exact h.13 e h'

/-- A host write to `CLEAR` (R24). -/
theorem State.Inv.clear {s : State} (h : s.Inv) (w : Word) : (s.clear w).Inv := by
  refine ⟨h.1, h.2, h.3, h.4, h.5, h.6, fun hb => ?_, fun hf => ?_, fun hf => ?_, fun hf => ?_, h.11,
    h.12, h.13⟩
  · have := h.busy_alone hb; simp [State.clear, this]
  · simp [State.clear] at hf ⊢; simp [h.fault_not_done hf.1]
  · simp [State.clear] at hf ⊢
    have := h.no_cause; cases hs : s.fault <;> cases hw : w[2] <;> simp_all
  · simp [State.clear] at hf ⊢; rw [hf.2]; simpa using h.cause_legal hf.1

end Sys2Proof.Machine
end

