-- ==== Sys2Proof/Laws/ModularEngine.lean ====
section
/-! SUPPORT. The modular engine and the exponentiation loop compute the residues their rules name
(R69, R70, R71, R73). -/

namespace Sys2Proof.Modular

theorem addMod_eq (a b m : Nat) : addMod a b m = (a + b) % m := (Nat.add_mod a b m).symm

theorem mulMod_eq (a b m : Nat) : mulMod a b m = a * b % m := (Nat.mul_mod a b m).symm

/-- The result of `subMod` is in `[0, m)` and is congruent to the difference (R70). -/
theorem subMod_spec (a b m : Nat) (hm : 0 < m) :
    subMod a b m < m ∧ (subMod a b m + b) % m = a % m := by
  have ha : canon a m < m := Nat.mod_lt a hm
  have hb : canon b m < m := Nat.mod_lt b hm
  have hmod : canon a m % m = a % m := Nat.mod_mod _ _
  have hred : ∀ d : Nat, (d + b) % m = (d + canon b m) % m := fun d => by
    rw [canon, Nat.add_mod d b, Nat.add_mod d (b % m), Nat.mod_mod]
  rw [hred, subMod]
  split
  · next h => exact ⟨by omega, by rw [Nat.sub_add_cancel h, hmod]⟩
  · next h =>
    refine ⟨by omega, ?_⟩
    rw [show m - (canon b m - canon a m) + canon b m = canon a m + m by omega, Nat.add_mod_right, hmod]

/-- The loop multiplies `sq ^ x` into the accumulator modulo `m`, and leaves it alone for `x = 0`. -/
theorem powLoop_eq (m fuel acc sq x : Nat) (hx : x < 2 ^ fuel) :
    powLoop m fuel acc sq x = if x = 0 then acc else acc * sq ^ x % m := by
  induction fuel generalizing acc sq x with
  | zero => simp at hx; simp [powLoop, hx]
  | succ fuel ih =>
    rw [powLoop]
    by_cases h0 : x = 0
    · simp [h0]
    · rw [Nat.pow_succ] at hx
      rw [if_neg h0, if_neg h0, ih _ _ _ (by omega)]
      have hsq : canon (sq * sq) m ≡ sq ^ 2 [MOD m] := by
        rw [Nat.pow_two]; exact Nat.mod_modEq _ _
      by_cases hh : x / 2 = 0
      · have h1 : x = 1 := by omega
        simp [h1, canon]
      · rw [if_neg hh]
        change _ ≡ _ [MOD m]
        have hp : sq ^ x = sq ^ (x % 2) * (sq ^ 2) ^ (x / 2) := by
          rw [← Nat.pow_mul, ← Nat.pow_add, Nat.mod_add_div]
        rw [hp, ← Nat.mul_assoc]
        refine Nat.ModEq.mul ?_ (hsq.pow _)
        split
        · next h1 => rw [h1, Nat.pow_one]; exact Nat.mod_modEq _ _
        · next h1 => rw [show x % 2 = 0 by omega]; simp [Nat.ModEq]

/-- `powMod` is 1 for exponent 0, unreduced, and the residue of the power otherwise (R73). -/
theorem powMod_eq (a e m : Nat) : powMod a e m = if e = 0 then 1 else a ^ e % m := by
  rw [powMod, powLoop_eq _ _ _ _ _ Nat.lt_log2_self, canon, Nat.one_mul, ← Nat.pow_mod]

end Sys2Proof.Modular
end

