-- ==== Sys2Proof/Laws/PerInstr.lean ====
section
/-! SUPPORT. Laws of every command as a term, one lemma for each constructor of `Instr`. -/

namespace Sys2Proof.Laws.OpcodeField

/-- Bits 31:24 of the word of a command are its opcode (R42, R47). -/
def Statement (i : Instr) : Prop := bits (encode i) 31 24 = i.opcode

theorem of_formatR {op : Nat} (h : op < 256) (rd ra rb rc : RegName) :
    bits (formatR op rd ra rb rc) 31 24 = op := by
  rw [bits_eq, formatR_toNat h]; omega

theorem of_formatI {op : Nat} (h : op < 256) (rd ra : RegName) (imm : BitVec 16) :
    bits (formatI op rd ra imm) 31 24 = op := by
  have := imm.isLt
  rw [bits_eq, formatI_toNat h]; omega

theorem nop : Statement (.nop) := of_formatR (Instr.opcode_lt _) _ _ _ _
theorem ld (rd : RegName) (n : BitVec 16) : Statement (.ld rd n) := of_formatI (Instr.opcode_lt _) _ _ _
theorem st (ra : RegName) : Statement (.st ra) := of_formatR (Instr.opcode_lt _) _ _ _ _
theorem mov (rd : RegName) (ra : RegName) : Statement (.mov rd ra) := of_formatR (Instr.opcode_lt _) _ _ _ _
theorem ldi (rd : RegName) (imm : BitVec 16) : Statement (.ldi rd imm) := of_formatI (Instr.opcode_lt _) _ _ _
theorem add (rd : RegName) (ra : RegName) (rb : RegName) : Statement (.add rd ra rb) := of_formatR (Instr.opcode_lt _) _ _ _ _
theorem sub (rd : RegName) (ra : RegName) (rb : RegName) : Statement (.sub rd ra rb) := of_formatR (Instr.opcode_lt _) _ _ _ _
theorem mul (rd : RegName) (ra : RegName) (rb : RegName) : Statement (.mul rd ra rb) := of_formatR (Instr.opcode_lt _) _ _ _ _
theorem shl (rd : RegName) (ra : RegName) (k : BitVec 16) : Statement (.shl rd ra k) := of_formatI (Instr.opcode_lt _) _ _ _
theorem shr (rd : RegName) (ra : RegName) (k : BitVec 16) : Statement (.shr rd ra k) := of_formatI (Instr.opcode_lt _) _ _ _
theorem cmp (ra : RegName) (rb : RegName) : Statement (.cmp ra rb) := of_formatR (Instr.opcode_lt _) _ _ _ _
theorem divrem (rd : RegName) (rc : RegName) (ra : RegName) (rb : RegName) : Statement (.divrem rd rc ra rb) := of_formatR (Instr.opcode_lt _) _ _ _ _
theorem rem (rd : RegName) (ra : RegName) (rb : RegName) : Statement (.rem rd ra rb) := of_formatR (Instr.opcode_lt _) _ _ _ _
theorem canon (rd : RegName) (ra : RegName) (rc : RegName) : Statement (.canon rd ra rc) := of_formatR (Instr.opcode_lt _) _ _ _ _
theorem addmod (rd : RegName) (ra : RegName) (rb : RegName) (rc : RegName) : Statement (.addmod rd ra rb rc) := of_formatR (Instr.opcode_lt _) _ _ _ _
theorem submod (rd : RegName) (ra : RegName) (rb : RegName) (rc : RegName) : Statement (.submod rd ra rb rc) := of_formatR (Instr.opcode_lt _) _ _ _ _
theorem mulmod (rd : RegName) (ra : RegName) (rb : RegName) (rc : RegName) : Statement (.mulmod rd ra rb rc) := of_formatR (Instr.opcode_lt _) _ _ _ _
theorem powmod (rd : RegName) (ra : RegName) (rb : RegName) (rc : RegName) : Statement (.powmod rd ra rb rc) := of_formatR (Instr.opcode_lt _) _ _ _ _

end Sys2Proof.Laws.OpcodeField
end

