-- ==== Sys2Proof/Tests/Slice0.lean ====
section
/-! SUPPORT. Tests. Expected results are the spec's own vectors (`spec/95_test_vectors.md`, ids in the
docstrings) and words written field by field from `spec/30_encoding.md`. The second half has a witness for
every statement with hypotheses. -/

namespace Sys2Proof.Tests

open Sys2Proof.Machine

/-! ## Well-formed terms, and words -/

/-- R48 case 3: the one check. -/
theorem test_wellFormed_refuses_divrem_same : (Instr.divrem 2 2 0 1).wellFormed = false := by decide
theorem test_wellFormed_accepts_divrem : (Instr.divrem 2 3 0 1).wellFormed = true := by decide

/-- R43, R44, R47: one word for each command, its fields in the order `op rd ra rb rc zero` or
`op rd ra imm16`. -/
theorem test_decode_movement :
    decode (0x00#8 ++ 0#24) = .ok .nop ∧
    decode (0x01#8 ++ 3#4 ++ 0#4 ++ 2#16) = .ok (.ld 3 2) ∧
    decode (0x02#8 ++ 0#4 ++ 7#4 ++ 0#16) = .ok (.st 7) ∧
    decode (0x03#8 ++ 9#4 ++ 2#4 ++ 0#16) = .ok (.mov 9 2) ∧
    decode (0x04#8 ++ 15#4 ++ 0#4 ++ 65535#16) = .ok (.ldi 15 65535) := by decide

theorem test_decode_arithmetic :
    decode (0x10#8 ++ 2#4 ++ 3#4 ++ 4#4 ++ 0#4 ++ 0#8) = .ok (.add 2 3 4) ∧
    decode (0x11#8 ++ 2#4 ++ 3#4 ++ 4#4 ++ 0#4 ++ 0#8) = .ok (.sub 2 3 4) ∧
    decode (0x12#8 ++ 2#4 ++ 3#4 ++ 4#4 ++ 0#4 ++ 0#8) = .ok (.mul 2 3 4) ∧
    decode (0x13#8 ++ 1#4 ++ 2#4 ++ 65535#16) = .ok (.shl 1 2 65535) ∧
    decode (0x14#8 ++ 1#4 ++ 2#4 ++ 5#16) = .ok (.shr 1 2 5) ∧
    decode (0x15#8 ++ 0#4 ++ 3#4 ++ 4#4 ++ 0#4 ++ 0#8) = .ok (.cmp 3 4) := by decide

theorem test_decode_division :
    decode (0x18#8 ++ 2#4 ++ 3#4 ++ 4#4 ++ 5#4 ++ 0#8) = .ok (.divrem 2 5 3 4) ∧
    decode (0x19#8 ++ 2#4 ++ 3#4 ++ 4#4 ++ 0#4 ++ 0#8) = .ok (.rem 2 3 4) := by decide

theorem test_decode_modular :
    decode (0x20#8 ++ 2#4 ++ 3#4 ++ 0#4 ++ 5#4 ++ 0#8) = .ok (.canon 2 3 5) ∧
    decode (0x21#8 ++ 2#4 ++ 3#4 ++ 4#4 ++ 5#4 ++ 0#8) = .ok (.addmod 2 3 4 5) ∧
    decode (0x22#8 ++ 2#4 ++ 3#4 ++ 4#4 ++ 5#4 ++ 0#8) = .ok (.submod 2 3 4 5) ∧
    decode (0x23#8 ++ 2#4 ++ 3#4 ++ 4#4 ++ 5#4 ++ 0#8) = .ok (.mulmod 2 3 4 5) ∧
    decode (0x28#8 ++ 2#4 ++ 3#4 ++ 4#4 ++ 5#4 ++ 0#8) = .ok (.powmod 2 3 4 5) := by decide

/-- R48: a register field that is not used, `zero`, the free bits of format I, and unused opcodes. -/
theorem test_decode_rejects :
    decode 0x00100000 = .error (.mustBeZero 0x00) ∧ decode 0x01310002 = .error (.mustBeZero 0x01) ∧
    decode 0x15101000 = .error (.mustBeZero 0x15) ∧ decode 0x20201300 = .error (.mustBeZero 0x20) ∧
    decode 0x28201301 = .error (.mustBeZero 0x28) ∧ decode 0x05000000 = .error (.unknownOpcode 0x05) ∧
    decode 0x18201200 = .error (.sameDestination 2) := by decide

/-- R47: no word matches two rows of the table. -/
theorem test_rows_do_not_overlap :
    opcodeTable.Pairwise fun r q => r.pattern &&& q.mask ≠ q.pattern &&& r.mask := by decide

/-- R47: each row's own word is a command of that row; `DIVREM` also needs `rd != rc` (here 1 and 0). -/
theorem test_rows_decode :
    opcodeTable.map (fun r => (decode (r.pattern ||| 0x00100000 &&& ~~~r.mask)).toOption.map Instr.mnemonic)
      = opcodeTable.map fun r => some r.mnemonic := by decide

theorem test_decodeTableWord :
    decodeTableWord 32 0x10201000 = some (.add 2 0 1) ∧ decodeTableWord 32 0xFF000000 = none := by decide

/-- R47, R49, R50: the words and the notation of `spec/95_test_vectors.md`. -/
theorem test_encode_words :
    encode (.divrem 3 4 2 1) = 0x18321400 ∧ encode (.cmp 1 15) = 0x1501F000 ∧
    encode (.ldi 3 3233) = 0x04300CA1 ∧ encode (Pseudo.rema 0 1).expand = 0x19001000 ∧
    encode (Pseudo.sqrmod 2 0 3).expand = 0x23200300 := by decide
theorem test_text :
    (Instr.divrem 2 3 0 1).text = "DIVREM M2, M3, M0, M1" ∧ (Instr.ldi 0 65535).text = "LDI M0, 65535" ∧
    Instr.nop.text = "NOP" := by decide

/-! ## One completion at a time -/

/-- A block of capacity `lmax` at address 0 with `M0 = A`, `M1 = B`, `M3 = m` and the buffer words `ws`. -/
def block (lmax : Nat) (A B m : Mag) (ws : List Word := []) : State :=
  let s : State := { State.reset with lmax := lmax, base := 0 }
  let t := ((s.setReg 0 A).setReg 1 B).setReg 3 m
  ws.zipIdx.foldl (fun u w => u.setBuf w.2 w.1) t

/-- The state after the one step that completes the command word `w`. -/
def after (s : State) (w : Nat) : Option State :=
  match step (s.withFetchWord 32 w) with
  | .next t => some t
  | .fault _ => none
  | .refused _ => none

/-- What the command word `w` leaves in `M[r]` and in `STATUS`. -/
def leaves (s : State) (w : Nat) (r : RegName) : Option (Mag × Word) :=
  (after s w).map fun t => (t.reg r, t.statusWord)

/-- What a faulting command word leaves: `M[r]`, `STATUS`, `FCAUSE`, `FCMD`. -/
def faults (s : State) (w : Nat) (r : RegName) : Option (Mag × Word × BitVec 4 × Word) :=
  (after s w).map fun t => (t.reg r, t.statusWord, t.fcause, t.fcmd)

/-- DM17 -/
theorem test_nop : (after (block 8 [5] [6] [7]) 0x00000000).map (fun t => (t.regs, t.statusWord))
    = some ((block 8 [5] [6] [7]).regs, 0x02) := by decide
/-- DM3 -/
theorem test_ld_trims : leaves (block 8 [0] [9] [0] [5, 0]) 0x01100002 1 = some ([5], 0x02) := by decide
/-- DM7, and DM10 with a buffer that was never written -/
theorem test_ld_faults :
    faults (block 8 [0] [9] [0] [7, 1000000000]) 0x01100002 1 = some ([9], 0x04, 5, 0x01100002) ∧
    faults (block 8 [0] [9] [0]) 0x01100009 1 = some ([9], 0x04, 6, 0x01100009) := by decide
/-- DM11 -/
theorem test_st : (after (block 8 [234567890, 345678901, 456789012, 123] [0] [0] [0, 0, 0, 0, 77])
      0x02000000).map (fun t => (t.bufWords 5, t.buflen))
    = some ([234567890, 345678901, 456789012, 123, 77], 4) := by decide
/-- DM16 (with `M0` as the source) -/
theorem test_mov : leaves (block 8 [1, 2] [0] [0]) 0x03900000 9 = some ([1, 2], 0x02) := by decide
/-- DM14 -/
theorem test_ldi : leaves (block 8 [9, 9] [0] [0]) 0x0400FFFF 0 = some ([65535], 0x02) := by decide
/-- AR4 -/
theorem test_add_carries : leaves (block 8 [1, 2, 3] [999999999] [0]) 0x10201000 2
    = some ([0, 3, 3], 0x02) := by decide
/-- AR6 -/
theorem test_add_overflow : faults (block 2 [999999999, 999999999] [1] [0]) 0x10201000 2
    = some ([0], 0x04, 4, 0x10201000) := by decide
/-- AR8 -/
theorem test_sub_borrows : leaves (block 8 [0, 0, 1] [1] [0]) 0x11201000 2
    = some ([999999999, 999999999], 0x02) := by decide
/-- AR11 -/
theorem test_sub_underflow : faults (block 8 [999999999] [0, 1] [0]) 0x11201000 2
    = some ([0], 0x04, 3, 0x11201000) := by decide
/-- AR14 -/
theorem test_mul : leaves (block 8 [234567890, 345678901, 456789012, 123] [765432109, 654321098, 987] [0])
      0x12201000 2
    = some ([746380010, 749121223, 817523485, 795226076, 631137021, 121932], 0x02) := by decide
/-- AR18 -/
theorem test_mul_fits_trimmed : leaves (block 3 [0, 1] [0, 1] [0]) 0x12201000 2
    = some ([0, 0, 1], 0x02) := by decide
/-- AR23 -/
theorem test_shl_overflow : faults (block 4 [1, 2] [9] [0]) 0x13100003 1
    = some ([9], 0x04, 4, 0x13100003) := by decide
/-- AR24 -/
theorem test_shl_zero : leaves (block 4 [0] [9] [0]) 0x1310FFFF 1 = some ([0], 0x02) := by decide
/-- AR28 -/
theorem test_shr : leaves (block 8 [1, 0, 3] [9] [0]) 0x14100001 1 = some ([0, 3], 0x02) := by decide
/-- AR27 -/
theorem test_shr_all : leaves (block 8 [1, 2, 3] [9] [0]) 0x14100005 1 = some ([0], 0x02) := by decide
/-- AR32 -/
theorem test_cmp_less : (leaves (block 8 [9, 2] [1, 3] [0]) 0x15001000 0).map Prod.snd = some 0x22 := by decide
/-- AR31 -/
theorem test_cmp_equal : (leaves (block 8 [1, 2] [1, 2] [0]) 0x15001000 0).map Prod.snd = some 0x12 := by
  decide
/-- DV5 -/
theorem test_divrem : (after (block 8 [746380010, 749121223, 817523485, 795226076, 631137021, 121932]
      [765432109, 654321098, 987] [9]) 0x18201300).map (fun t => (t.reg 2, t.reg 3, t.statusWord))
    = some ([234567890, 345678901, 456789012, 123], [0], 0x02) := by decide
/-- DV12 -/
theorem test_divrem_in_place : (after (block 8 [100] [7] [0]) 0x18001100).map (fun t => (t.reg 0, t.reg 1))
    = some ([14], [2]) := by decide
/-- DV14 -/
theorem test_rem : leaves (block 8 [84] [33] [0]) 0x19201000 2 = some ([18], 0x02) := by decide
/-- DV16 -/
theorem test_rem_zero : faults (block 8 [100] [0] [0]) 0x19001000 0
    = some ([100], 0x04, 2, 0x19001000) := by decide
/-- MM4 -/
theorem test_canon : leaves (block 8 [0, 0, 1] [0] [7]) 0x20200300 2 = some ([1], 0x02) := by decide
/-- MM6 -/
theorem test_canon_zero : faults (block 8 [5] [0] [0]) 0x20200300 2
    = some ([0], 0x04, 2, 0x20200300) := by decide
/-- MM7 -/
theorem test_addmod : leaves (block 8 [999999999] [999999999] [0, 1]) 0x21201300 2
    = some ([999999998], 0x02) := by decide
/-- MM10 -/
theorem test_addmod_sum_is_modulus : leaves (block 8 [3] [4] [7]) 0x21201300 2 = some ([0], 0x02) := by decide
/-- MM14 -/
theorem test_submod : leaves (block 8 [0] [1] [7, 0, 1]) 0x22201300 2 = some ([6, 0, 1], 0x02) := by decide
/-- MM12 -/
theorem test_submod_zero : leaves (block 8 [3] [10] [7]) 0x22201300 2 = some ([0], 0x02) := by decide
/-- MM16 -/
theorem test_mulmod : leaves (block 3 [999999999, 999999999] [999999999, 999999999] [7, 0, 1]) 0x23201300 2
    = some ([64], 0x02) := by decide
/-- MM8 -/
theorem test_mulmod_inverse : leaves (block 8 [34795381] [38572232] [226339651]) 0x23201300 2
    = some ([1], 0x02) := by decide
/-- EX5 -/
theorem test_powmod : leaves (block 8 [123456789] [65537] [7, 0, 1]) 0x28201300 2
    = some ([709193449, 17801693], 0x02) := by decide
/-- EX10 -/
theorem test_powmod_zero_exponent : leaves (block 8 [5] [0] [1]) 0x28201300 2 = some ([1], 0x02) := by decide

/-! ## The host port -/

/-- The state after one access of the host. -/
def access (s : State) (a : HostAccess) : Option State :=
  match s.hostAccess a with
  | .next t => some t
  | .fault _ => none
  | .refused _ => none

/-- IF1, IF2 -/
theorem test_control_reads :
    [0x00, 0x04, 0x08, 0x0C, 0x10, 0x14, 0x18, 0x1C].map
        (fun a => (access (block 64 [0] [0] [0]) (.read a 4)).map State.rdata)
      = [some 0x00100040, some 0, some 0, some 0, some 0, some 0, some 0, some 0] := by decide
/-- IF3 -/
theorem test_cmd_write : (access (block 64 [0] [0] [0]) (.write 0x04 4 0x04000005)).map State.statusWord
    = some 0x01 := by decide
/-- IF5: the second word is dropped. -/
theorem test_cmd_write_busy :
    (access ((block 64 [0] [0] [0]).withFetchWord 32 0x04000005) (.write 0x04 4 0x04100007)).map
      (fun t => (t.statusWord, t.cur)) = some (0x09, 0x04000005) := by decide
/-- IF6 -/
theorem test_buffer_word : (access (block 64 [0] [0] [0] [0xFFFFFFFF]) (.read 0x100 4)).map State.rdata
    = some 0xFFFFFFFF := by decide
/-- IF7, IF8, IF9 -/
theorem test_illegal_words :
    [0xFF000000, 0x10201001, 0x15101000].map (fun w => faults (block 64 [0] [0] [0]) w 0)
      = [some ([0], 0x04, 1, 0xFF000000), some ([0], 0x04, 1, 0x10201001),
         some ([0], 0x04, 1, 0x15101000)] := by decide
/-- IF11 -/
theorem test_clear_keeps_flags :
    (access { block 64 [0] [0] [0] with done := true, flagLt := true } (.write 0x14 4 0x3E)).map
      State.statusWord = some 0x20 := by decide
/-- IF12: a write to `CAP` is ignored. -/
theorem test_cap_write : access (block 64 [0] [0] [0]) (.write 0x00 4 0x12345678)
    = some (block 64 [0] [0] [0]) := by decide
/-- IF13: the first word above the buffer. -/
theorem test_above_buffer : access (block 64 [0] [0] [0]) (.write 0x200 4 0x12345678)
    = some (block 64 [0] [0] [0]) := by decide
/-- R32 -/
theorem test_little_endian : (block 8 [0] [0] [0] [0x44332211]).mem
    = [(0x100, 0x11), (0x101, 0x22), (0x102, 0x33), (0x103, 0x44)] := by decide
/-- R33, U5: refused, each by its own name. -/
theorem test_refused :
    (block 8 [0] [0] [0]).hostAccess (.read 0x08 1) = .refused (.accessWidth 1) ∧
    (block 8 [0] [0] [0]).hostAccess (.read 0x0A 4) = .refused (.misaligned 0x0A) ∧
    (block 8 [0] [0] [0]).hostAccess (.write 0x80000 4 0) = .refused (.outsideWindow 0x80000) :=
  ⟨rfl, rfl, rfl⟩
theorem test_reset_memory : Memory.wf State.reset.mem = true := by decide

/-- R40's example, DM4 and DM3, and back. -/
theorem test_text_limbs :
    HostText.textLimbs "123456789012345678901234567890".toList
      = [234567890, 345678901, 456789012, 123] ∧
    HostText.textLimbs [] = [0] ∧ HostText.textLimbs "000000000000000005".toList = [5, 0] := by decide
/-- DM13, DM12 -/
theorem test_limbs_text :
    HostText.limbsText [5, 0, 7] = "7000000000000000005".toList ∧ HostText.limbsText [0] = ['0'] := by decide

/-! ## Witnesses: for each statement with hypotheses, a concrete input that meets them -/

/-- `LMAX = 2`, window at `0x1000`; `M0 = 0`, `M1 = 1`, `M2` the largest number, `M3 = 7`,
`M4 = 10^9 + 5`, `M5 = 10^9`; the buffer holds the greatest limb and `last`. -/
def wit (last : Word) : State :=
  { block 2 [0] [1] [7] [999999999, last] with
    base := 0x1000
    regs := #v[[0], [1], [999999999, 999999999], [7], [5, 1], [0, 1], [0], [0], [0], [0], [0], [0], [0],
      [0], [0], [0]] }

/-- The same with the word `w` in flight. -/
def busyWit (w : Word) : State := { wit 3 with cur := w, busy := true }

/-- The same with a latched `DivisionByZero` and nothing in flight. -/
def faultedWit : State := { wit 3 with fault := true, fcause := 2, fcmd := 0x19201000 }

/-- The invariant, in an idle, a busy and a faulted state: the one hypothesis of `StWritesLimbs`,
`MovCopies`, `LdiMakesOneLimb`, `ShrDividesByRadixPower`, `CmpComparesNumbers`, `CommandsThatNeverFault` and
`EqualNumbersEqualSequences`. -/
theorem witness_inv : (wit 3).Inv := by constructor <;> decide
theorem witness_inv_bad_word : (wit 1000000000).Inv := by constructor <;> decide
theorem witness_inv_busy (w : Word) : (busyWit w).Inv :=
  let h := witness_inv
  ⟨h.1, h.2, h.3, h.4, h.5, h.6, fun _ => ⟨rfl, rfl⟩, fun _ => rfl, h.9, h.10, h.11, h.12, h.13⟩
theorem witness_inv_faulted : faultedWit.Inv := by constructor <;> decide

theorem witness_DecodeOfEncodeIsTheCommand :
    (Instr.divrem 15 0 15 15).wellFormed = true ∧ (Instr.powmod 1 2 3 4).wellFormed = true := by decide
theorem witness_DecodedWordIsItsEncoding : decode 0x28FFFF00 = .ok (.powmod 15 15 15 15) := by decide
theorem witness_TableRowsSelectCommands :
    ∃ row ∈ opcodeTable, ∃ w : Word, w &&& row.mask = row.pattern ∧ row.mnemonic = "DIVREM" ∧
      rdField w ≠ rcField w := by
  refine ⟨⟨"DIVREM", 0x18000000, 0xFF0000FF⟩, ?_, 0x18201300, ?_⟩ <;> decide
theorem witness_IllegalWordsFaultAtCompletion_illegal :
    ∀ row ∈ opcodeTable, ¬((busyWit 0x18201200).cur &&& row.mask = row.pattern ∧
      (row.mnemonic = "DIVREM" → rdField (busyWit 0x18201200).cur ≠ rcField (busyWit 0x18201200).cur)) := by
  decide
theorem witness_IllegalWordsFaultAtCompletion_legal :
    ∃ row ∈ opcodeTable, (busyWit 0x18201300).cur &&& row.mask = row.pattern ∧
      (row.mnemonic = "DIVREM" → rdField (busyWit 0x18201300).cur ≠ rcField (busyWit 0x18201300).cur) := by
  decide

theorem witness_StepFollowsTheSchedule :
    ((busyWit 0).busy = true ∧ (busyWit 0).events = []) ∧ ((wit 3).busy = false ∧ (wit 3).events = []) ∧
    ({ busyWit 0 with events := [.engine] } : State).events = .engine :: [] ∧
    ({ wit 3 with events := [.access (.read 0x1008 4), .rst] } : State).events
      = .access (.read 0x1008 4) :: [.rst] ∧
    ({ busyWit 0 with events := [.rst] } : State).events = .rst :: [] := by decide
theorem witness_StepRunsTheDecodedCommand :
    (busyWit 0x10201000).busy = true ∧ decode (busyWit 0x10201000).cur = .ok (.add 2 0 1) ∧
    (busyWit 0x10201000).events = [] := by decide
theorem witness_FetchWordRunsNext : decode 0x10201000 = .ok (.add 2 0 1) := by decide

/-- Three counts at the edge of `LMAX = 2`, and the greatest limb beside the least word that is none. -/
theorem witness_LdLoadsBufferWords :
    (wit 3).lmax < (3 : BitVec 16).toNat ∧
    ((2 : BitVec 16).toNat ≤ (wit 1000000000).lmax ∧ ∃ j, j < (2 : BitVec 16).toNat ∧
      RADIX ≤ ((wit 1000000000).buf j).toNat) ∧
    ((2 : BitVec 16).toNat ≤ (wit 3).lmax ∧ ∀ j, j < (2 : BitVec 16).toNat → ((wit 3).buf j).toNat < RADIX) ∧
    ((0 : BitVec 16).toNat ≤ (wit 3).lmax ∧
      ∀ j, j < (0 : BitVec 16).toNat → ((wit 3).buf j).toNat < RADIX) ∧
    (wit 3).Inv ∧ (wit 1000000000).Inv :=
  ⟨by decide, ⟨by decide, 1, by decide, by decide⟩, ⟨by decide, by decide⟩, ⟨by decide, by decide⟩,
    witness_inv, witness_inv_bad_word⟩
theorem witness_StThenLdCopies :
    (busyWit 0x02020000).Inv ∧ ∃ t, exec (.st 2) (busyWit 0x02020000) = .next t :=
  ⟨witness_inv_busy _, _, rfl⟩

theorem witness_AddGivesSum : (wit 3).Inv ∧
    Mag.nlimbs ((wit 3).value 2 + (wit 3).value 0) ≤ (wit 3).lmax ∧
    (wit 3).lmax < Mag.nlimbs ((wit 3).value 2 + (wit 3).value 1) :=
  ⟨witness_inv, by decide⟩
theorem witness_SubGivesDifference : (wit 3).Inv ∧
    (wit 3).value 1 ≤ (wit 3).value 1 ∧ (wit 3).value 4 ≤ (wit 3).value 2 ∧
    (wit 3).value 1 < (wit 3).value 3 :=
  ⟨witness_inv, by decide⟩
theorem witness_MulGivesProduct : (wit 3).Inv ∧
    (Mag.nlimbs ((wit 3).value 3 * (wit 3).value 4) ≤ (wit 3).lmax ∧ (wit 3).value 3 ≠ 0 ∧
      (wit 3).value 4 ≠ 0) ∧
    (wit 3).lmax < Mag.nlimbs ((wit 3).value 5 * (wit 3).value 5) :=
  ⟨witness_inv, by decide⟩
theorem witness_ShlMultipliesByRadixPower : (wit 3).Inv ∧
    (wit 3).value 0 = 0 ∧ ((wit 3).reg 1).length + (1 : BitVec 16).toNat ≤ (wit 3).lmax ∧
    ((wit 3).value 1 ≠ 0 ∧ (wit 3).lmax < ((wit 3).reg 1).length + (2 : BitVec 16).toNat) :=
  ⟨witness_inv, by decide⟩
/-- For `DivremGivesQuotientAndRemainder`, `RemGivesRemainder` and `DivremReconstructsDividend`: a divisor
0 and one that is not, destinations that differ and that do not. -/
theorem witness_DivremGivesQuotientAndRemainder : (wit 3).Inv ∧
    (6 : RegName) ≠ 7 ∧ (6 : RegName) = 6 ∧ (wit 3).value 0 = 0 ∧ (wit 3).value 3 ≠ 0 :=
  ⟨witness_inv, by decide⟩
/-- For `ModulusRange` and the statements of `CANON`, `ADDMOD`, `MULMOD`, `POWMOD`: `M0`, `M1`, `M3` are
moduli 0, 1 and 7, and exponents 0 and not 0. -/
theorem witness_ModulusRange : (wit 3).Inv ∧
    (wit 3).value 0 = 0 ∧ (1 ≤ (wit 3).value 1 ∧ (wit 3).value 1 = 1) ∧ (wit 3).value 3 ≠ 0 :=
  ⟨witness_inv, by decide⟩
/-- `1 - 6 = 2` and `6 - 1 = 5` modulo 7, with `M5 = 10^9 = 6 (mod 7)`. -/
theorem witness_SubmodGivesResidueOfDifference : (wit 3).Inv ∧
    (2 < (wit 3).value 3 ∧ (2 + (wit 3).value 5) % (wit 3).value 3 = (wit 3).value 1 % (wit 3).value 3) ∧
    (5 < (wit 3).value 3 ∧ (5 + (wit 3).value 1) % (wit 3).value 3 = (wit 3).value 5 % (wit 3).value 3) :=
  ⟨witness_inv, by decide⟩
theorem witness_PseudoCommandEffects : (wit 3).Inv ∧
    ((wit 3).reg 1).length + (1 : BitVec 16).toNat ≤ (wit 3).lmax ∧
    ((wit 3).reg 2).length + (0 : BitVec 16).toNat ≤ (wit 3).lmax ∧ (wit 3).value 3 ≠ 0 :=
  ⟨witness_inv, by decide⟩

/-- A sum that overflows, in flight. -/
theorem witness_FaultCausesAreExact :
    (busyWit 0x10621000).Inv ∧ (busyWit 0x10621000).busy = true ∧
    ∃ t, (busyWit 0x10621000).completeCurrent = .next t ∧ t.fault = true ∧ t.fcause = 4 :=
  ⟨witness_inv_busy _, rfl, _, rfl, by decide, by decide⟩
theorem witness_FaultsArePrecise :
    (∃ t, exec (.rem 6 2 0) (busyWit 0) = .next t ∧ t.fault = true) ∧
    (∃ t, exec (.rem 6 2 3) (busyWit 0) = .next t ∧ t.fault = false) ∧ (busyWit 0).fault = false :=
  ⟨⟨_, rfl, by decide⟩, ⟨_, rfl, by decide⟩, by decide⟩
theorem witness_CommandFrame :
    (∃ t, exec (.cmp 2 3) (busyWit 0) = .next t) ∧ (∃ t, exec (.st 2) (busyWit 0) = .next t) ∧
    (6 : RegName) ∉ (Instr.divrem 4 5 2 3).destinations ∧ bufOffset ((busyWit 0).reg 2).length ≤ 0x108 ∧
    0xFF < bufOffset 0 :=
  ⟨⟨_, rfl⟩, ⟨_, rfl⟩, by decide, by decide, by decide⟩
/-- Two states that differ in a register, the flags, a buffer word and `REJ`, and agree on the operands. -/
theorem witness_ResultDependsOnOperandsAlone :
    (∀ r ∈ (Instr.divrem 6 7 2 3).sources,
      (wit 3).reg r = State.reg { (wit 4).setReg 6 [8] with flagEq := true, rej := true } r) ∧
    (∀ j, j < (1 : BitVec 16).toNat → (wit 3).buf j = (wit 4).buf j) ∧ (wit 3).buf 1 ≠ (wit 4).buf 1 ∧
    (wit 3).fault = false ∧ (wit 3).lmax = (wit 4).lmax := by decide

theorem witness_CommandPortWrite :
    ((wit 3).busy = false ∧ (wit 3).fault = false) ∧ (busyWit 0).busy = true ∧ faultedWit.fault = true := by
  decide
theorem witness_ControlRegisterReads : (wit 3).lmax ≤ 65535 := by decide
theorem witness_HostReadsHaveNoSideEffect :
    (∃ t, (wit 3).hostAccess (.read 0x1100 4) = .next t ∧ (wit 3).busy = false) ∧
    ∃ t, (busyWit 0).hostAccess (.read 0x1100 4) = .next t :=
  ⟨⟨_, rfl, rfl⟩, _, rfl⟩
theorem witness_BufferPortAccess :
    0 < (wit 3).lmax ∧ 1 < (wit 3).lmax ∧ (wit 3).lmax ≤ 65535 ∧ (wit 3).busy = false ∧
    (busyWit 0).busy = true := by decide
theorem witness_BufferBytesLittleEndian : 0 < 4 ∧ 3 < 4 := by decide
/-- The first and the last word of the window; then another width, the words around the window, and an
offset that is no multiple of 4. -/
theorem witness_OnlyAlignedWordsHaveMeaning :
    ((wit 3).base ≤ 0x1000 ∧ 0x1000 < (wit 3).base + 0x80000 ∧ (0x1000 - (wit 3).base) % 4 = 0) ∧
    ((wit 3).base ≤ 0x80FFC ∧ 0x80FFC < (wit 3).base + 0x80000 ∧ (0x80FFC - (wit 3).base) % 4 = 0) ∧
    ¬(2 = 4) ∧ ¬((wit 3).base ≤ 0xFFC) ∧ ¬(0x81000 < (wit 3).base + 0x80000) ∧
    ¬((0x1002 - (wit 3).base) % 4 = 0) := by decide
/-- The edges of the two reserved ranges, and the read-only registers. -/
theorem witness_ReservedAndReadOnlyOffsets :
    (∀ off ∈ [0x1C, 0xFC, 0x108, 0x7FFFC], off % 4 = 0 ∧ off ≤ 0x7FFFC ∧
      ((0x1C ≤ off ∧ off ≤ 0xFC) ∨ 0x100 + 4 * (wit 3).lmax ≤ off)) ∧
    ∀ off ∈ [0x00, 0x08, 0x0C, 0x10, 0x18], off % 4 = 0 ∧ off ≤ 0x7FFFC := by decide
theorem witness_FaultBlocksCommandsUntilCleared :
    faultedWit.fault = true ∧ faultedWit.busy = false ∧ (0x00000004 : Word).getLsbD 2 = true := by decide

theorem witness_ResetInputGivesResetValues :
    ({ busyWit 0 with events := [.rst, .engine] } : State).events = .rst :: [.engine] := by decide
theorem witness_OnlyCompletionAndResetChangeRegisters :
    (∃ t, step (busyWit 0x0400FFFF) = .next t ∧ t.regs ≠ (busyWit 0x0400FFFF).regs) ∧
    ∃ t, step { wit 3 with events := [.rst] } = .next t ∧ t.regs ≠ (wit 3).regs :=
  ⟨⟨_, rfl, by decide⟩, _, rfl, by decide⟩
/-- A dropped `CMD` write and a buffer read, during a command that stores to the buffer. -/
theorem witness_HostCannotDisturbCommandInFlight :
    (busyWit 0x02020000).busy = true ∧
    (∃ t, (busyWit 0x02020000).hostAccess (.write 0x1004 4 0x04000001) = .next t) ∧
    (∃ t, (busyWit 0x02020000).hostAccess (.read 0x1100 4) = .next t) ∧
    (∃ u, (busyWit 0x02020000).completeCurrent = .next u) ∧ (busyWit 0x02020000).Inv :=
  ⟨rfl, ⟨_, rfl⟩, ⟨_, rfl⟩, ⟨_, rfl⟩, witness_inv_busy _⟩
theorem witness_BusyEngineCompletes :
    (busyWit 0xFF000000).busy = true ∧ (busyWit 0xFF000000).events = [] := by decide
theorem witness_ScheduleEndsIdle :
    (∀ addr bytes, .access (.read addr bytes) ∈ ([.access (.read 0x1008 4), .rst, .engine] : List Event) →
      ∃ off, (wit 3).offsetOf addr bytes = .ok off) ∧
    ∀ addr bytes w, .access (.write addr bytes w) ∈
      ([.access (.write 0x1004 4 0x04000005), .engine] : List Event) →
        ∃ off, (wit 3).offsetOf addr bytes = .ok off := by
  constructor
  · intro addr bytes h
    obtain ⟨rfl, rfl⟩ : addr = 0x1008 ∧ bytes = 4 := by simpa using h
    exact ⟨0x08, by decide⟩
  · intro addr bytes w h
    obtain ⟨rfl, rfl, rfl⟩ : addr = 0x1004 ∧ bytes = 4 ∧ w = 0x04000005 := by simpa using h
    exact ⟨0x04, by decide⟩
theorem witness_EveryStepKeepsTheInvariant :
    (busyWit 0x10201000).Inv ∧ (∃ t, step (busyWit 0x10201000) = .next t) ∧
    (State.Inv { faultedWit with events := [.access (.write 0x1014 4 0xC)] }) ∧
    ∃ t, step { faultedWit with events := [.access (.write 0x1014 4 0xC)] } = .next t :=
  ⟨witness_inv_busy _, ⟨_, rfl⟩, by constructor <;> decide, _, rfl⟩
/-- A read of `STATUS` while busy, a `CMD` write while idle, a `CLEAR` write under a fault. -/
theorem witness_HostRuleLosesNoWrite :
    (busyWit 0).hostRule (.read 0x1008 4) = true ∧
    ((wit 3).hostRule (.write 0x1004 4 0) = true ∧ (wit 3).fault = false) ∧
    (faultedWit.hostRule (.write 0x1014 4 0xC) = true ∧
      faultedWit.writesCmd (.write 0x1014 4 0xC) = false) ∧
    (∃ t, (busyWit 0).hostAccess (.read 0x1008 4) = .next t) ∧
    (∃ t, (wit 3).hostAccess (.write 0x1004 4 0) = .next t) ∧
    ∃ t, faultedWit.hostAccess (.write 0x1014 4 0xC) = .next t :=
  ⟨by decide, by decide, by decide, ⟨_, rfl⟩, ⟨_, rfl⟩, _, rfl⟩
theorem witness_TextRoundTrip : Mag.Normal [0] ∧ Mag.Normal [5, 0, 7] := by decide

end Sys2Proof.Tests
end

/-! The scope: the schedule, the reset state, one sequence for one number, and what a command's outcome
depends on. -/

namespace Sys2Proof.Config

/-- The two parameters are in their ranges, whatever an implementation fixes (R5, R35). -/
theorem params_in_range :
    1 ≤ lmax ∧ lmax ≤ 65535 ∧ base % 4 = 0 :=
  ⟨Nat.le_add_left .., lmaxLessOne.isLt, Nat.mul_mod_right ..⟩

end Sys2Proof.Config

namespace Sys2Proof.Machine

/-! ## The agent whose turn it is (R9, R21) -/

theorem State.engineTurn_of_busy {s : State} (h : s.busy = true) : s.engineTurn = s.completeCurrent :=
  if_pos h

theorem State.engineTurn_of_idle {s : State} (h : s.busy = false) : s.engineTurn = .next s :=
  if_neg (by simp [h])

theorem step_of_no_events {s : State} (h : s.events = []) : step s = s.engineTurn := by
  rw [step, h]

theorem step_of_engine {s : State} {es : List Event} (h : s.events = .engine :: es) :
    step s = State.engineTurn { s with events := es } := by
  rw [step, h]

theorem step_of_access {s : State} {a : HostAccess} {es : List Event} (h : s.events = .access a :: es) :
    step s = State.hostAccess { s with events := es } a := by
  rw [step, h]

theorem step_of_rst {s : State} {es : List Event} (h : s.events = .rst :: es) :
    step s = .next (State.applyReset { s with events := es }) := by
  rw [step, h]

/-- Settles O6: the turn's equation, then whether the engine is busy. -/
theorem stepFollowsTheSchedule : Obligations.StepFollowsTheSchedule := by
  intro s es
  refine ⟨fun hb he => ?_, fun hb he => ?_, fun hb he => ?_, fun hb he => ?_,
    fun a he => step_of_access he, step_of_rst⟩
  · rw [step_of_no_events he, State.engineTurn_of_busy hb]
  · rw [step_of_no_events he, State.engineTurn_of_idle hb]
  · rw [step_of_engine he]; exact State.engineTurn_of_busy hb
  · rw [step_of_engine he]; exact State.engineTurn_of_idle hb

/-! ## The reset state (R28) -/

@[simp] theorem State.reset_reg (r : RegName) : State.reset.reg r = [0] := by
  simp [State.reg, State.reset]

/-- Settles O54: every register is the one limb 0, every bit is 0, and the parameters are in range. -/
theorem resetMeetsTheInvariant : Obligations.ResetMeetsTheInvariant := by
  obtain ⟨hpos, hle, hbase⟩ := Config.params_in_range
  exact {
    lmax_pos := hpos
    lmax_le := hle
    base_aligned := hbase
    regs_normal := fun r => by rw [State.reset_reg]; decide
    regs_fit := fun r => by rw [State.reset_reg]; exact hpos
    flags_exclusive := by decide
    busy_alone := fun hb => nomatch hb
    fault_not_done := fun _ => rfl
    no_cause := fun _ => ⟨rfl, rfl⟩
    cause_legal := fun hf => nomatch hf
    buflen_le := Nat.zero_le _
    mem_wf := rfl
    mem_in_buffer := fun _ he => nomatch he }

/-! ## One number, one sequence (R11) -/

/-- Under the invariant a register is `limbs` of its number (R7, R11). -/
theorem State.Inv.limbs_value {s : State} (h : s.Inv) (r : RegName) : Mag.limbs (s.value r) = s.reg r :=
  Mag.limbs_val_of_normal (h.regs_normal r)

/-- Under the invariant a register's number fits `LMAX` limbs (R13). -/
theorem State.Inv.nlimbs_value_le {s : State} (h : s.Inv) (r : RegName) :
    Mag.nlimbs (s.value r) ≤ s.lmax := by
  rw [Mag.nlimbs, h.limbs_value]
  exact h.regs_fit r

/-- Settles O56: `limbs` takes the number back to the register's normal form. -/
theorem equalNumbersEqualSequences : Obligations.EqualNumbersEqualSequences := by
  intro s h r q
  refine ⟨⟨fun hv => ?_, congrArg Mag.val⟩, h.limbs_value r, h.nlimbs_value_le r⟩
  rw [← h.limbs_value r, hv, h.limbs_value q]

/-! ## What a command's outcome depends on (R9, R27) -/

/-- Two states that agree on all that the command `i` reads. -/
structure SameOperands (i : Instr) (s u : State) : Prop where
  lmax : s.lmax = u.lmax
  reg : ∀ r ∈ i.sources, s.reg r = u.reg r
  words : ∀ rd n, i = .ld rd n → ∀ j, j < n.toNat → s.buf j = u.buf j

theorem SameOperands.value {i : Instr} {s u : State} (h : SameOperands i s u) {r : RegName}
    (hr : r ∈ i.sources) : s.value r = u.value r :=
  congrArg Mag.val (h.reg r hr)

theorem SameOperands.bufWords {rd : RegName} {n : BitVec 16} {s u : State}
    (h : SameOperands (.ld rd n) s u) : s.bufWords (immValue n) = u.bufWords (immValue n) :=
  List.map_congr_left fun j hj => h.words rd n rfl j (List.mem_range.mp hj)

/-- The command `i` yields the same from `s` and from `u`: one fault, or the same values written to both
states. Only a command with a destination register faults. -/
inductive SameResult (i : Instr) (s u : State) : CommandResult → CommandResult → Prop where
  | fault (f : FaultCause) : i.destinations ≠ [] → SameResult i s u (.error f) (.error f)
  | none : i = .nop → SameResult i s u (.ok s) (.ok u)
  | flags (ra rb : RegName) (c : Ordering) : i = .cmp ra rb →
      SameResult i s u (.ok (s.setFlags c)) (.ok (u.setFlags c))
  | buffer (ra : RegName) : i = .st ra →
      SameResult i s u
        (.ok { s.storeLimbs 0 (s.reg ra) with buflen := BitVec.ofNat 16 (s.reg ra).length })
        (.ok { u.storeLimbs 0 (s.reg ra) with buflen := BitVec.ofNat 16 (s.reg ra).length })
  | register (r : RegName) (L : Mag) : i.destinations = [r] →
      SameResult i s u (.ok (s.setReg r L)) (.ok (u.setReg r L))
  | registers (r q : RegName) (L K : Mag) : i.destinations = [r, q] →
      SameResult i s u (.ok ((s.setReg r L).setReg q K)) (.ok ((u.setReg r L).setReg q K))

section
variable {i : Instr} {s u : State}

/-- The capacity check and the write depend on `LMAX` and the sequence alone (R13). -/
theorem SameResult.of_writeReg (hl : s.lmax = u.lmax) {r : RegName} (hd : i.destinations = [r])
    (L : Mag) : SameResult i s u (s.writeReg r L) (u.writeReg r L) := by
  by_cases h : s.lmax < L.length
  · rw [State.writeReg_of_overflow r h, State.writeReg_of_overflow r (hl ▸ h)]
    exact .fault _ (by simp [hd])
  · rw [State.writeReg_of_fits r (by omega), State.writeReg_of_fits r (by omega)]
    exact .register r L hd

/-- One check that ends in a fault, the same in both states, before results that agree. -/
theorem SameResult.of_ite_fault {p : Prop} [Decidable p] {f : FaultCause} {x y : CommandResult}
    (hd : i.destinations ≠ []) (h : SameResult i s u x y) :
    SameResult i s u (if p then .error f else x) (if p then .error f else y) := by
  split
  · exact .fault f hd
  · exact h

/-- The modulus check and the result of a modular command (R72). -/
theorem SameResult.of_modResult (hl : s.lmax = u.lmax) {r rc : RegName} (hd : i.destinations = [r])
    (hc : s.value rc = u.value rc) (v : Nat) :
    SameResult i s u (s.modResult r rc v) (u.modResult r rc v) := by
  rw [State.modResult, State.modResult, ← hc]
  exact .of_ite_fault (by simp [hd]) (.of_writeReg hl hd _)

/-- The length check, the range check and the loaded limbs (R53). -/
theorem SameResult.of_loadResult {rd : RegName} {n : BitVec 16} (h : SameOperands (.ld rd n) s u) :
    SameResult (.ld rd n) s u (loadResult rd (immValue n) s) (loadResult rd (immValue n) u) := by
  rw [loadResult, loadResult, ← h.lmax, ← h.bufWords]
  refine .of_ite_fault (List.cons_ne_nil _ _) ?_
  split
  · exact .of_writeReg h.lmax rfl _
  · exact .fault _ (List.cons_ne_nil _ _)

/-- Both writes of the quotient and the remainder, or neither (R64). -/
theorem SameResult.of_divremResult {rd rc ra rb : RegName}
    (h : SameOperands (.divrem rd rc ra rb) s u) :
    SameResult (.divrem rd rc ra rb) s u (divremResult rd rc ra rb s) (divremResult rd rc ra rb u) := by
  have hl := h.lmax
  have ha : s.value ra = u.value ra := h.value (by simp [Instr.sources])
  have hb : s.value rb = u.value rb := h.value (by simp [Instr.sources])
  have hd : (Instr.divrem rd rc ra rb).destinations ≠ [] := List.cons_ne_nil _ _
  rw [divremResult, divremResult, ← ha, ← hb]
  refine .of_ite_fault hd (.of_ite_fault hd ?_)
  dsimp only
  generalize Mag.limbs (Divider.divRem (s.value ra) (s.value rb)).1 = L
  generalize Mag.limbs (Divider.divRem (s.value ra) (s.value rb)).2 = K
  by_cases hL : s.lmax < L.length
  · rw [State.writeReg_of_overflow rd hL, State.writeReg_of_overflow rd (hl ▸ hL)]
    exact .fault _ hd
  rw [State.writeReg_of_fits rd (by omega), State.writeReg_of_fits rd (by omega)]
  dsimp only
  by_cases hK : s.lmax < K.length
  · rw [State.writeReg_of_overflow rc (by simpa using hK),
      State.writeReg_of_overflow rc (by simpa [← hl] using hK)]
    exact .fault _ hd
  · rw [State.writeReg_of_fits rc (by simpa using hK),
      State.writeReg_of_fits rc (by simpa [← hl] using hK)]
    exact .registers rd rc L K rfl

/-- A command yields the same from two states that agree on its operands (R9, R27). -/
theorem SameOperands.sameResult (h : SameOperands i s u) :
    SameResult i s u (resultOf i s) (resultOf i u) := by
  have hl := h.lmax
  have hr : ∀ r ∈ i.sources, s.reg r = u.reg r := h.reg
  have hv : ∀ r ∈ i.sources, s.value r = u.value r := fun _ => h.value
  cases i with
  | nop => exact .none rfl
  | ld rd n => exact .of_loadResult h
  | divrem rd rc ra rb => exact .of_divremResult h
  | ldi rd imm => exact .of_writeReg hl rfl _
  | st ra =>
    simp only [Instr.sources, List.forall_mem_cons] at hr
    simp only [resultOf, ← hr]
    exact .buffer ra rfl
  | cmp ra rb =>
    simp only [Instr.sources, List.forall_mem_cons] at hr
    simp only [resultOf, ← hr]
    exact .flags ra rb _ rfl
  | mov rd ra | shl rd ra k | shr rd ra k | add rd ra rb | mul rd ra rb =>
    simp only [Instr.sources, List.forall_mem_cons] at hr
    simp only [resultOf, ← hr]
    exact .of_writeReg hl rfl _
  | sub rd ra rb =>
    simp only [Instr.sources, List.forall_mem_cons] at hr
    simp only [resultOf, ← hr]
    exact .of_ite_fault (List.cons_ne_nil _ _) (.of_writeReg hl rfl _)
  | rem rd ra rb =>
    simp only [Instr.sources, List.forall_mem_cons] at hv
    simp only [resultOf, ← hv]
    exact .of_ite_fault (List.cons_ne_nil _ _) (.of_writeReg hl rfl _)
  | canon rd ra rc | addmod rd ra rb rc | submod rd ra rb rc | mulmod rd ra rb rc
  | powmod rd ra rb rc =>
    have hc : s.value rc = u.value rc := hv rc (by simp [Instr.sources])
    simp only [Instr.sources, List.forall_mem_cons] at hv
    simp only [resultOf, ← hv]
    exact .of_modResult hl rfl hc _

end

/-- Settles O37: one fault is taken alike, and each kind of write leaves the same values in both. -/
theorem resultDependsOnOperandsAlone : Obligations.ResultDependsOnOperandsAlone := by
  intro s u s' u' i hl hs hu hr hw hes heu
  have h := (SameOperands.mk hl hr hw).sameResult
  rw [exec_eq_next] at hes heu
  subst hes heu
  generalize resultOf i s = x at h ⊢
  generalize resultOf i u = y at h ⊢
  cases h with
  | fault f hd =>
    refine ⟨rfl, fun _ => rfl, by simp, ?_, ?_⟩
    · rintro ra rb rfl; exact absurd rfl hd
    · rintro ra rfl; exact absurd rfl hd
  | none hi => subst hi; simp [hs, hu, Instr.destinations]
  | flags ra rb c hi => subst hi; simp [hs, hu, Instr.destinations]
  | buffer ra hi =>
    subst hi
    refine ⟨?_, by simp [hs], by simp [Instr.destinations], by simp, ?_⟩
    · simp [hs, hu]
    · rintro _ ⟨⟩
      refine ⟨rfl, fun j hj => ?_⟩
      have hbuf : ∀ t : State, (t.storeLimbs 0 (s.reg ra)).buf j = limbWord (s.reg ra)[j] := fun t => by
        simpa using t.storeLimbs_buf (s.reg ra) 0 j hj
      exact (hbuf s).trans (hbuf u).symm
  | register r L hd =>
    refine ⟨by simp [hs, hu], by simp [hs], fun _ q hq => ?_, ?_, ?_⟩
    · obtain rfl : q = r := by simpa [hd] using hq
      exact (State.reg_setReg_same ..).trans (State.reg_setReg_same ..).symm
    · rintro ra rb rfl; cases hd
    · rintro ra rfl; cases hd
  | registers r q L K hd =>
    refine ⟨by simp [hs, hu], by simp [hs], fun _ p hp => ?_, ?_, ?_⟩
    · show ((s.setReg r L).setReg q K).reg p = ((u.setReg r L).setReg q K).reg p
      obtain rfl | rfl : p = r ∨ p = q := by simpa [hd] using hp
      · simp [State.reg_setReg]
      · simp
    · rintro ra rb rfl; cases hd
    · rintro ra rfl; cases hd

end Sys2Proof.Machine

/-! The state: what a completion writes and leaves, what each access of the host does, reset, and the
invariant of the block. -/

namespace Sys2Proof.Machine

section
variable {i : Instr} {s t : State}

/-! ## What a command writes and what it leaves -/

/-- Storing limbs writes the byte list and nothing else (R54). -/
theorem State.storeLimbs_eq (s : State) (L : Mag) (j : Nat) :
    s.storeLimbs j L = { s with mem := (s.storeLimbs j L).mem } := by
  induction L generalizing s j with
  | nil => rfl
  | cons l ls ih => exact ih (s.setBuf j (limbWord l)) (j + 1)

/-- A command that does not fault writes registers, flags and the buffer, and nothing else (R51). -/
theorem Writes.eq (h : Writes i s t) :
    t = { s with
      regs := t.regs, flagEq := t.flagEq, flagLt := t.flagLt, buflen := t.buflen, mem := t.mem } := by
  cases h with
  | buffer ra => rw [State.storeLimbs_eq]
  | _ => rfl

theorem Writes.fault_eq (h : Writes i s t) : t.fault = s.fault := by rw [h.eq]

theorem Writes.reg_eq (h : Writes i s t) {r : RegName} (hr : r ∉ i.destinations) : t.reg r = s.reg r := by
  cases h with
  | none | flags => rfl
  | buffer ra => exact State.reg_congr (State.storeLimbs_regs ..) r
  | register q L hd =>
    rw [hd, List.mem_singleton] at hr
    exact State.reg_setReg_ne s hr L
  | registers p q L K hd =>
    simp only [hd, List.mem_cons, List.not_mem_nil, or_false, not_or] at hr
    rw [State.reg_setReg_ne _ hr.2, State.reg_setReg_ne _ hr.1]

theorem Writes.flags_eq (h : Writes i s t) (hi : ∀ ra rb, i ≠ .cmp ra rb) :
    t.flagEq = s.flagEq ∧ t.flagLt = s.flagLt := by
  cases h with
  | flags ra rb he => exact absurd he (hi ra rb)
  | buffer ra => exact ⟨State.storeLimbs_flagEq .., State.storeLimbs_flagLt ..⟩
  | _ => exact ⟨rfl, rfl⟩

theorem Writes.buffer_eq (h : Writes i s t) (hi : ∀ ra, i ≠ .st ra) :
    (∀ a, t.bufByte a = s.bufByte a) ∧ t.buflen = s.buflen := by
  cases h with
  | buffer ra he => exact absurd he (hi ra)
  | _ => exact ⟨fun _ => rfl, rfl⟩

/-- `ST` leaves every byte outside the words it fills (R54). -/
theorem Writes.bufByte_eq_of_st {ra : RegName} (h : Writes (.st ra) s t) {a : Nat}
    (ha : a < bufOffset 0 ∨ bufOffset (s.reg ra).length ≤ a) : t.bufByte a = s.bufByte a := by
  cases h with
  | buffer _ he =>
    cases he
    exact s.storeLimbs_bufByte_outside (s.reg ra) 0 a (by rwa [Nat.zero_add])
  | none hi | flags _ _ hi => cases hi
  | register _ _ hd | registers _ _ _ _ hd => cases hd

/-- Settles O35: the faulting branch is `raise`, the other one `finish` after writes that leave `FAULT`. -/
theorem faultsArePrecise : Obligations.FaultsArePrecise := by
  intro s t i h hs
  rw [exec_eq_next] at h
  subst h
  cases hr : resultOf i s with
  | error f => exact ⟨fun _ => ⟨f.code, f.code_range.1, f.code_range.2, rfl⟩, fun hf => nomatch hf⟩
  | ok u =>
    have hw := resultOf_ok hr
    refine ⟨fun hf => ?_, fun _ => ⟨rfl, ?_⟩⟩
    · rw [State.complete_ok, State.finish_fault, hw.fault_eq, hs] at hf
      cases hf
    · rw [State.complete_ok, hw.eq]
      exact ⟨rfl, rfl⟩

/-- Settles O36: a fault leaves everything named, and `finish` adds nothing to the frame of the writes. -/
theorem commandFrame : Obligations.CommandFrame := by
  intro s t i h
  rw [exec_eq_next] at h
  subst h
  cases hr : resultOf i s with
  | error f => simp
  | ok u =>
    have hw := resultOf_ok hr
    refine ⟨fun r => hw.reg_eq, hw.flags_eq, hw.buffer_eq, ?_, rfl, ?_⟩
    · rintro ra rfl a ha
      exact hw.bufByte_eq_of_st ha
    · rw [State.complete_ok, hw.eq]
      exact ⟨rfl, rfl, rfl, rfl, rfl, rfl, rfl, rfl⟩

/-! ## The engine's turn (R21) -/

/-- Every completion ends with `BUSY = 0` (R21, R76). -/
@[simp] theorem State.complete_busy (s : State) (out : CommandResult) : (s.complete out).busy = false := by
  cases out <;> rfl

theorem State.complete_done_or_fault (s : State) (out : CommandResult) :
    (s.complete out).done = true ∨ (s.complete out).fault = true := by
  cases out with
  | ok t => exact .inl rfl
  | error f => exact .inr rfl

theorem State.completeCurrent_of_decode (h : decode s.cur = .ok i) : s.completeCurrent = exec i s := by
  rw [State.completeCurrent, h]

theorem State.engineTurn_of_decode (hb : s.busy = true) (h : decode s.cur = .ok i) :
    s.engineTurn = exec i s := by
  rw [State.engineTurn_of_busy hb, State.completeCurrent_of_decode h]

theorem State.engineTurn_of_busy_eq (hb : s.busy = true) :
    s.engineTurn = .next (s.complete s.currentResult) := by
  rw [State.engineTurn_of_busy hb, State.completeCurrent_eq]

/-- Settles O7: the turn's equation, then the decoded command's. -/
theorem stepRunsTheDecodedCommand : Obligations.StepRunsTheDecodedCommand := by
  intro s i hb hd
  refine ⟨fun he => ?_, fun es he => ?_⟩
  · rw [step_of_no_events he, State.engineTurn_of_decode hb hd]
  · rw [step_of_engine he]
    exact State.engineTurn_of_decode (s := { s with events := es }) hb hd

/-- The turn after a word is placed is the engine's, and leaves the schedule as it was (assumption 7). -/
theorem step_withFetchWord (s : State) (n w : Nat) :
    step (s.withFetchWord n w) = State.engineTurn { s.withFetchWord n w with events := s.events } := by
  cases he : s.events with
  | nil =>
    have hw : (s.withFetchWord n w).events = [] := by rw [State.withFetchWord, he]
    rw [step_of_no_events hw, ← hw]
  | cons e es => exact step_of_engine (by rw [State.withFetchWord, he])

/-- Settles O8: the engine's turn on the word placed, which keeps all its 32 bits. -/
theorem fetchWordRunsNext : Obligations.FetchWordRunsNext := by
  intro s w i hd
  have hcur : BitVec.ofNat 32 (w.toNat % 2 ^ 32) = w := by
    rw [Nat.mod_eq_of_lt w.isLt, BitVec.ofNat_toNat, BitVec.setWidth_eq]
  rw [step_withFetchWord, State.withFetchWord, hcur]
  exact State.engineTurn_of_decode rfl hd

/-- Settles O52: in either schedule the engine's turn is a completion. -/
theorem busyEngineCompletes : Obligations.BusyEngineCompletes := by
  intro s hb hev
  obtain he | ⟨es, he⟩ := hev
  · rw [step_of_no_events he, State.engineTurn_of_busy_eq hb]
    exact ⟨_, rfl, State.complete_busy .., State.complete_done_or_fault ..⟩
  · rw [step_of_engine he, State.engineTurn_of_busy_eq (s := { s with events := es }) hb]
    exact ⟨_, rfl, State.complete_busy .., State.complete_done_or_fault ..⟩

/-! ## The invariant, turn by turn -/

theorem Writes.inv (h : Writes i s t) (hs : s.Inv) : t.Inv := by
  cases h with
  | none => exact hs
  | flags ra rb => exact hs.setFlags _
  | buffer ra => exact hs.store ra
  | register r L _ hl hn => exact hs.setReg r (hn hs.regs_normal) hl
  | registers r q L K _ _ hl hk hL hK => exact (hs.setReg r hL hl).setReg q hK hk

/-- The completion of the command in flight (R21). -/
theorem State.Inv.completion (h : s.Inv) (hb : s.busy = true) : (s.complete s.currentResult).Inv := by
  cases hr : s.currentResult with
  | error f => exact h.raise hb f
  | ok t =>
    obtain ⟨i, -, hi⟩ := State.currentResult_ok hr
    have hw := resultOf_ok hi
    exact (hw.inv h).finish (hw.fault_eq.trans (h.busy_alone hb).2)

theorem State.Inv.engineTurn (h : s.Inv) (ht : s.engineTurn = .next t) : t.Inv := by
  cases hb : s.busy with
  | true =>
    rw [State.engineTurn_of_busy_eq hb] at ht
    cases ht
    exact h.completion hb
  | false =>
    rw [State.engineTurn_of_idle hb] at ht
    cases ht
    exact h

/-- An accepted `CMD` write, which needs that no fault is latched (R20). -/
theorem State.Inv.accepted (h : s.Inv) (hf : s.fault = false) (w : Word) :
    ({ s with cur := w, busy := true, done := false } : State).Inv :=
  { h with busy_alone := fun _ => ⟨rfl, hf⟩, fault_not_done := fun _ => rfl }

theorem HostWritten.inv {w : Word} {r : WindowReg} (hw : HostWritten s w r t) (h : s.Inv) : t.Inv := by
  cases hw with
  | ignored => exact h
  | accepted _ hf => exact h.accepted hf w
  | rejected | dropped => exact h.ofRejected
  | cleared => exact h.clear w
  | stored j _ hj => exact h.setBuf hj w

theorem State.Inv.hostAccess {a : HostAccess} (h : s.Inv) (ha : s.hostAccess a = .next t) : t.Inv := by
  obtain ⟨off, -, -, ⟨-, rfl⟩ | ⟨w, -, rfl⟩⟩ := State.hostAccess_eq_next ha
  · rw [(s.hostRead_eq off).1]
    exact h.ofRead ..
  · exact (s.hostWrite_spec off w).inv h

/-- The reset input, which keeps the parameters (R28, R86). -/
theorem State.Inv.applyReset (h : s.Inv) : s.applyReset.Inv where
  lmax_pos := h.lmax_pos
  lmax_le := h.lmax_le
  base_aligned := h.base_aligned
  regs_normal r := by rw [State.applyReset_reg]; decide
  regs_fit r := by rw [State.applyReset_reg]; exact h.lmax_pos
  flags_exclusive := by simp
  busy_alone hb := nomatch hb
  fault_not_done _ := rfl
  no_cause _ := ⟨rfl, rfl⟩
  cause_legal hf := nomatch hf
  buflen_le := Nat.zero_le _
  mem_wf := rfl
  mem_in_buffer _ he := nomatch he

/-- Settles O55: each of the three agents' turns keeps the invariant, and so does taking the turn off the
schedule. -/
theorem everyStepKeepsTheInvariant : Obligations.EveryStepKeepsTheInvariant := by
  intro s t h hst
  obtain ⟨-, ht⟩ | ⟨es, -, ht⟩ | ⟨a, es, -, ht⟩ | ⟨es, -, rfl⟩ := step_eq_next hst
  · exact h.engineTurn ht
  · exact (h.ofEvents es).engineTurn ht
  · exact (h.ofEvents es).hostAccess ht
  · exact (h.ofEvents es).applyReset

/-! ## One host access (R18, R34) -/

/-- A read of anything but a buffer word returns the register's word and changes nothing else. -/
theorem State.hostRead_control {off : Nat} {r : WindowReg} (hr : windowReg s.lmax off = r)
    (hb : ∀ j, r ≠ .buf j) : s.hostRead off = { s with rdata := s.controlWord r } := by
  rw [State.hostRead, hr]
  cases r with
  | buf j => exact absurd rfl (hb j)
  | _ => rfl

/-- The same of the host's access at that offset. -/
theorem State.hostAccess_read_control (s : State) {off : Nat} {r : WindowReg} (h4 : off % 4 = 0)
    (hw : off < windowBytes) (hr : windowReg s.lmax off = r) (hb : ∀ j, r ≠ .buf j) :
    s.hostAccess (.read (s.base + off) 4) = .next { s with rdata := s.controlWord r } := by
  rw [s.hostAccess_read h4 hw, State.hostRead_control hr hb]

/-- A write at an offset that holds no writable register is ignored (R18, R35). -/
theorem HostWritten.eq_self {w : Word} {r : WindowReg} (h : HostWritten s w r t) (hc : r ≠ .cmd)
    (hl : r ≠ .clear) (hb : ∀ j, r ≠ .buf j) : t = s := by
  cases h with
  | ignored => rfl
  | accepted | rejected => exact absurd rfl hc
  | cleared => exact absurd rfl hl
  | stored j | dropped j => exact absurd rfl (hb j)

theorem State.hostAccess_write_ignored (s : State) {off : Nat} {r : WindowReg} (w : Word)
    (h4 : off % 4 = 0) (hw : off < windowBytes) (hr : windowReg s.lmax off = r) (hc : r ≠ .cmd)
    (hl : r ≠ .clear) (hb : ∀ j, r ≠ .buf j) :
    s.hostAccess (.write (s.base + off) 4 w) = .next s := by
  subst hr
  rw [s.hostAccess_write h4 hw, (s.hostWrite_spec off w).eq_self hc hl hb]

theorem State.hostAccess_write_cmd (s : State) (w : Word) :
    s.hostAccess (.write (s.base + 0x04) 4 w) = .next (s.writeCmd w) :=
  s.hostAccess_write (by decide) (by decide) w

theorem State.hostAccess_write_clear (s : State) (w : Word) :
    s.hostAccess (.write (s.base + 0x14) 4 w) = .next (s.clear w) :=
  s.hostAccess_write (by decide) (by decide) w

theorem State.writeCmd_accepted (hb : s.busy = false) (hf : s.fault = false) (w : Word) :
    s.writeCmd w = { s with cur := w, busy := true, done := false } :=
  if_pos ⟨hb, hf⟩

theorem State.writeCmd_rejected (h : s.busy = true ∨ s.fault = true) (w : Word) :
    s.writeCmd w = { s with rej := true } :=
  if_neg fun ⟨hb, hf⟩ => by simp [hb, hf] at h

/-- A buffer word lies inside the window: `LMAX` is at most 65535 (R5, R30). -/
theorem bufOffset_lt_windowBytes {j lmax : Nat} (hj : j < lmax) (hl : lmax ≤ 65535) :
    0x100 + 4 * j < windowBytes := by
  unfold windowBytes
  omega

theorem State.hostAccess_write_buf {j : Nat} (hj : j < s.lmax) (hl : s.lmax ≤ 65535) (w : Word) :
    s.hostAccess (.write (s.base + (0x100 + 4 * j)) 4 w) = .next (s.hostWriteBuf j w) := by
  rw [s.hostAccess_write (by omega) (bufOffset_lt_windowBytes hj hl), State.hostWrite, windowReg_buf hj]

theorem State.hostAccess_read_buf {j : Nat} (hj : j < s.lmax) (hl : s.lmax ≤ 65535) :
    s.hostAccess (.read (s.base + (0x100 + 4 * j)) 4) =
      .next (if s.busy then { s with rdata := Config.busyRead s.draws, draws := s.draws + 1 }
        else { s with rdata := s.buf j }) := by
  rw [s.hostAccess_read (by omega) (bufOffset_lt_windowBytes hj hl), State.hostRead, windowReg_buf hj]

/-! ## The control registers (R19 to R25) -/

/-- Settles O38: the register's read, and the two branches of `writeCmd`. -/
theorem commandPortWrite : Obligations.CommandPortWrite := by
  intro s w
  refine ⟨s.hostAccess_read_control (by decide) (by decide) (r := .cmd) rfl (by simp),
    fun hb hf => ?_, fun h => ?_⟩
  · rw [s.hostAccess_write_cmd, State.writeCmd_accepted hb hf]
  · rw [s.hostAccess_write_cmd, State.writeCmd_rejected h]

/-- A number's bit `k` is the Boolean whose number is its digit `k`. -/
theorem getLsbD_ofNat_of_digit {n k : Nat} {b : Bool} (hk : k < 32) (h : n / 2 ^ k % 2 = b.toNat) :
    (BitVec.ofNat 32 n).getLsbD k = b := by
  rw [BitVec.getLsbD_ofNat, Nat.testBit_eq_decide_div_mod_eq, h, decide_eq_true hk, Bool.true_and]
  cases b <;> rfl

/-- Settles O39: the six bits are the binary digits of the status word's number, which is below 64. -/
theorem statusReadShowsBits : Obligations.StatusReadShowsBits := by
  intro s
  refine ⟨s.statusWord, s.hostAccess_read_control (by decide) (by decide) (r := .status) rfl (by simp), ?_⟩
  have hbusy := s.busy.toNat_le
  have hdone := s.done.toNat_le
  have hfault := s.fault.toNat_le
  have hrej := s.rej.toNat_le
  have heq := s.flagEq.toNat_le
  have hlt := s.flagLt.toNat_le
  have habove : ∀ k, 6 ≤ k → s.statusWord.getLsbD k = false := fun k hk => by
    have hpow : 2 ^ 6 ≤ 2 ^ k := Nat.pow_le_pow_right (by decide) hk
    rw [State.statusWord, BitVec.getLsbD_ofNat, Nat.testBit_lt_two_pow (by omega), Bool.and_false]
  refine ⟨?_, ?_, ?_, ?_, ?_, ?_, habove⟩ <;>
    exact getLsbD_ofNat_of_digit (by decide) (by omega)

/-- The fields of `CAP` as one number, for a capacity in range (R19). -/
theorem State.capWord_toNat (h : s.lmax ≤ 65535) : s.capWord.toNat = s.lmax + 16 * 2 ^ 16 := by
  have hl : s.lmax < 2 ^ 16 := by omega
  simp only [State.capWord, BitVec.toNat_append, BitVec.toNat_ofNat, Nat.mod_eq_of_lt hl]
  rw [← Nat.shiftLeft_add_eq_or_of_lt hl, Nat.shiftLeft_eq]
  simp [Nat.add_comm]

/-- Settles O40: the register at each offset, and the number its word stands for. -/
theorem controlRegisterReads : Obligations.ControlRegisterReads := by
  intro s hl
  refine ⟨⟨_, s.hostAccess_read_control (by decide) (by decide) (r := .cap) rfl (by simp),
      State.capWord_toNat hl⟩,
    ⟨_, s.hostAccess_read_control (by decide) (by decide) (r := .fcause) rfl (by simp),
      BitVec.toNat_setWidth_of_le (by decide)⟩,
    s.hostAccess_read_control (by decide) (by decide) (r := .fcmd) rfl (by simp),
    ⟨_, s.hostAccess_read_control (by decide) (by decide) (r := .buflen) rfl (by simp),
      BitVec.toNat_setWidth_of_le (by decide)⟩⟩

/-- Settles O41: an access that is a read is `hostRead`, whose draws change while busy alone. -/
theorem hostReadsHaveNoSideEffect : Obligations.HostReadsHaveNoSideEffect := by
  intro s t addr bytes h
  obtain ⟨off, -, -, ⟨-, rfl⟩ | ⟨w, ha, -⟩⟩ := State.hostAccess_eq_next h
  · obtain ⟨heq, hdraws⟩ := s.hostRead_eq off
    refine ⟨heq, fun hb => hdraws.resolve_right ?_⟩
    rintro ⟨hb', -⟩
    rw [hb] at hb'
    cases hb'
  · cases ha

/-- Settles O42: clearing a bit by a mask is the choice by the mask's bit. -/
theorem clearPortWrite : Obligations.ClearPortWrite := by
  intro s w
  have hmask : ∀ b c : Bool, (b && !c) = if c = true then false else b := by decide
  refine ⟨s.hostAccess_read_control (by decide) (by decide) (r := .clear) rfl (by simp), ?_⟩
  rw [s.hostAccess_write_clear, State.clear, hmask, hmask, hmask]

/-- Settles O47: rejected under the fault, and accepted on the state that `CLEAR` leaves. -/
theorem faultBlocksCommandsUntilCleared : Obligations.FaultBlocksCommandsUntilCleared := by
  intro s w v hf hb hw
  refine ⟨?_, s.clear w, s.hostAccess_write_clear w, ?_⟩
  · rw [s.hostAccess_write_cmd, State.writeCmd_rejected (.inr hf)]
  · have hfault : (s.clear w).fault = false := by rw [State.clear_fault, hw, Bool.not_true, Bool.and_false]
    have hcmd := (s.clear w).hostAccess_write_cmd v
    rw [State.writeCmd_accepted (s := s.clear w) hb hfault] at hcmd
    exact ⟨hfault, if_pos hw, if_pos hw, rfl, rfl, rfl, hcmd⟩

/-! ## Buffer words, reserved and read-only offsets (R18, R26, R35) -/

/-- Settles O43: the two branches of the write and of the read of a buffer word. -/
theorem bufferPortAccess : Obligations.BufferPortAccess := by
  intro s j w hj hl
  rw [State.hostAccess_write_buf hj hl, State.hostAccess_read_buf hj hl, State.hostWriteBuf]
  refine ⟨fun hb => ?_, fun hb => by rw [if_pos hb], fun hb => by simp [hb], fun hb => ?_⟩
  · refine ⟨s.setBuf j w, by simp [hb], s.buf_setBuf_same j w, fun a ha => ?_, rfl⟩
    rw [State.setBuf, State.bufByte_setBufWord, if_neg (by unfold bufOffset; omega)]
  · exact ⟨Config.busyRead s.draws, by rw [if_pos hb]⟩

/-- Settles O46: what stands at each of these offsets is no writable register. -/
theorem reservedAndReadOnlyOffsets : Obligations.ReservedAndReadOnlyOffsets := by
  intro s off w h4 hoff
  have hw : off < windowBytes := by unfold windowBytes; omega
  refine ⟨fun h => ?_, fun h => ?_⟩
  · have hr := windowReg_reserved h4 h
    exact ⟨s.hostAccess_read_control h4 hw hr (by simp),
      s.hostAccess_write_ignored w h4 hw hr (by simp) (by simp) (by simp)⟩
  · simp only [List.mem_cons, List.not_mem_nil, or_false] at h
    obtain rfl | rfl | rfl | rfl | rfl := h
    · exact s.hostAccess_write_ignored w h4 hw (r := .cap) rfl (by simp) (by simp) (by simp)
    · exact s.hostAccess_write_ignored w h4 hw (r := .status) rfl (by simp) (by simp) (by simp)
    · exact s.hostAccess_write_ignored w h4 hw (r := .fcause) rfl (by simp) (by simp) (by simp)
    · exact s.hostAccess_write_ignored w h4 hw (r := .fcmd) rfl (by simp) (by simp) (by simp)
    · exact s.hostAccess_write_ignored w h4 hw (r := .buflen) rfl (by simp) (by simp) (by simp)

/-! ## The command in flight is out of the host's reach (R92) -/

/-- The completion of the word in flight neither reads nor writes the port's fields. -/
theorem State.completion_withPort (s : State) (rej : Bool) (rdata : Word) (draws : Nat) :
    (s.withPort rej rdata draws).complete (s.withPort rej rdata draws).currentResult =
      (s.complete s.currentResult).withPort rej rdata draws := by
  have hcur : (s.withPort rej rdata draws).currentResult =
      s.currentResult.map fun t => t.withPort rej rdata draws := by
    rw [State.currentResult, State.currentResult, show (s.withPort rej rdata draws).cur = s.cur from rfl]
    cases decode s.cur with
    | ok i => exact resultOf_withPort ..
    | error e => rfl
  rw [hcur]
  cases s.currentResult <;> rfl

/-- While a command is in flight `CLEAR` finds `DONE` and the fault registers 0 already (R20, R24). -/
theorem State.Inv.clear_of_busy (h : s.Inv) (hb : s.busy = true) (w : Word) :
    s.clear w = s.withPort (s.rej && !w.getLsbD 3) s.rdata s.draws := by
  obtain ⟨hdone, hfault⟩ := h.busy_alone hb
  obtain ⟨hcause, hcmd⟩ := h.no_cause hfault
  simp [State.clear, State.withPort, hdone, hfault, hcause, hcmd]

theorem HostWritten.withPort_of_busy {w : Word} {r : WindowReg} (hw : HostWritten s w r t) (h : s.Inv)
    (hb : s.busy = true) : ∃ rej, t = s.withPort rej s.rdata s.draws := by
  cases hw with
  | ignored => exact ⟨s.rej, rfl⟩
  | rejected | dropped => exact ⟨true, rfl⟩
  | cleared => exact ⟨_, h.clear_of_busy hb w⟩
  | accepted hi | stored _ hi => rw [hb] at hi; cases hi

/-- While a command is in flight a host access changes the port's fields alone. -/
theorem State.Inv.hostAccess_of_busy {a : HostAccess} (h : s.Inv) (hb : s.busy = true)
    (ha : s.hostAccess a = .next t) : ∃ rej rdata draws, t = s.withPort rej rdata draws := by
  obtain ⟨off, -, -, ⟨-, rfl⟩ | ⟨w, -, rfl⟩⟩ := State.hostAccess_eq_next ha
  · exact ⟨s.rej, _, _, (s.hostRead_eq off).1⟩
  · obtain ⟨rej, ht⟩ := (s.hostWrite_spec off w).withPort_of_busy h hb
    exact ⟨rej, _, _, ht⟩

/-- Settles O51: the access moves only fields that the completion neither reads nor writes. -/
theorem hostCannotDisturbCommandInFlight : Obligations.HostCannotDisturbCommandInFlight := by
  intro s t u a h hb ha hu
  obtain ⟨rej, rdata, draws, rfl⟩ := h.hostAccess_of_busy hb ha
  rw [State.completeCurrent_eq] at hu
  cases hu
  rw [State.completeCurrent_eq, State.completion_withPort]
  exact ⟨_, rfl, rfl⟩

/-! ## Reset (R28, R86) -/

/-- Settles O48: the reset turn is `applyReset`, and each field of it has R28's value. -/
theorem resetInputGivesResetValues : Obligations.ResetInputGivesResetValues := by
  intro s es he
  exact ⟨_, step_of_rst he, State.applyReset_reg _, rfl, rfl, rfl, rfl, rfl, rfl, rfl, rfl, rfl, rfl,
    fun _ => rfl, rfl, rfl, rfl, rfl⟩

/-- Settles O49: each field of the reset state, and no byte listed. -/
theorem resetStateValues : Obligations.ResetStateValues :=
  ⟨State.reset_reg, rfl, rfl, rfl, rfl, fun _ => rfl⟩

end

end Sys2Proof.Machine

/-! The host's memory: the limbs of a decimal text and the text of a magnitude (R40), which accesses have a
meaning (R33), and the bytes of a buffer word (R32). -/

namespace Sys2Proof.Mag

/-- Limb `i` of a sequence, 0 past its end, is digit `i` of its number in radix `RADIX` (R7). -/
theorem getD_val (L : Mag) (i : Nat) : (L.getD i 0).val = val L / RADIX ^ i % RADIX := by
  induction L generalizing i with
  | nil => simp
  | cons l ls ih =>
    have hl : l.val < RADIX := l.isLt
    cases i with
    | zero => simp [Nat.mod_eq_of_lt hl]
    | succ i =>
      rw [List.getD_cons_succ, ih, val_cons, Nat.pow_succ', ← Nat.div_div_eq_div_mul,
        Nat.add_mul_div_left _ _ (by decide), Nat.div_eq_of_lt hl, Nat.zero_add]

end Sys2Proof.Mag

namespace Sys2Proof.HostText

/-- A limb is nine decimal digits (R5). -/
theorem radix_eq : RADIX = 10 ^ LIMB_DIGITS := rfl

/-! ## The number that digits write -/

theorem number_eq_ofDigits (ds : List Nat) : number ds = Nat.ofDigits 10 ds.reverse := by
  induction ds using List.reverseRecOn with
  | nil => rfl
  | append_singleton ds d ih =>
    rw [List.reverse_append, List.reverse_singleton, List.singleton_append, Nat.ofDigits_cons, ← ih, number,
      List.foldl_append, number, Nat.add_comm]
    rfl

theorem number_append (ds es : List Nat) :
    number (ds ++ es) = number es + 10 ^ es.length * number ds := by
  simp [number_eq_ofDigits, Nat.ofDigits_append]

/-- Leading zeros do not change the number. -/
theorem number_dropWhile_zero (ds : List Nat) : number (ds.dropWhile (· == 0)) = number ds := by
  induction ds with
  | nil => rfl
  | cons d ds ih =>
    by_cases hd : d = 0
    · subst hd; exact ih
    · rw [List.dropWhile_cons_of_neg (by simpa using hd)]

/-! ## The limbs of a text -/

theorem digits_lt_ten {text : List Char} {d : Nat} (h : d ∈ digits text) : d < 10 := by
  simp only [digits, List.mem_map, List.mem_filter] at h
  obtain ⟨c, ⟨-, hc⟩, rfl⟩ := h
  have hrange : 48 ≤ c.toNat ∧ c.toNat ≤ 57 := by
    simpa [Char.isDigit, UInt32.le_iff_toNat_le] using hc
  omega

@[simp] theorem groupLimbs_length (count : Nat) (ds : List Nat) : (groupLimbs count ds).length = count := by
  induction count generalizing ds with
  | zero => rfl
  | succ count ih => simp [groupLimbs, ih]

/-- Groups of nine digits that reach all of them stand for the number the digits write. -/
theorem val_groupLimbs {count : Nat} {ds : List Nat} (hd : ∀ d ∈ ds, d < 10)
    (hlen : ds.length ≤ 9 * count) : Mag.val (groupLimbs count ds) = Nat.ofDigits 10 ds := by
  induction count generalizing ds with
  | zero =>
    obtain rfl := List.length_eq_zero_iff.mp (Nat.le_zero.mp hlen)
    rfl
  | succ count ih =>
    have hrest := ih (ds := ds.drop LIMB_DIGITS) (fun d h => hd d (List.mem_of_mem_drop h))
      (by rw [List.length_drop, LIMB_DIGITS]; omega)
    rw [groupLimbs, Mag.val_cons, Mag.limbOf_val, hrest, number_eq_ofDigits, List.reverse_reverse,
      ← Nat.ofDigits_mod_pow_eq_ofDigits_take _ (by decide) ds hd,
      ← Nat.ofDigits_div_pow_eq_ofDigits_drop _ (by decide) ds hd, radix_eq, Nat.mod_mod, Nat.mod_add_div]

/-- The limbs of a text stand for the number its digits write (R40). -/
theorem val_textLimbs (text : List Char) : Mag.val (textLimbs text) = number (digits text) := by
  rw [textLimbs, val_groupLimbs (fun d h => digits_lt_ten (List.mem_reverse.mp h))
    (by rw [List.length_reverse]; omega), number_eq_ofDigits]

/-- Settles O58: the limbs of a text are the digits, in radix `10 ^ 9`, of the number they stand for. -/
theorem textLimbsOfNumber : Obligations.TextLimbsOfNumber := by
  intro text
  refine ⟨groupLimbs_length .., fun i => ?_⟩
  rw [Mag.getD_val, val_textLimbs, Nat.pow_mul, radix_eq]

/-! ## The text of a magnitude -/

@[simp] theorem paddedDigits_length (n v : Nat) : (paddedDigits n v).length = n := by
  induction n generalizing v with
  | zero => rfl
  | succ n ih => simp [paddedDigits, ih]

theorem paddedDigits_lt_ten {n v d : Nat} (h : d ∈ paddedDigits n v) : d < 10 := by
  induction n generalizing v with
  | zero => cases h
  | succ n ih =>
    rw [paddedDigits, List.mem_append, List.mem_singleton] at h
    obtain h | rfl := h
    · exact ih h
    · exact Nat.mod_lt _ (by decide)

theorem number_paddedDigits (n v : Nat) : number (paddedDigits n v) = v % 10 ^ n := by
  induction n generalizing v with
  | zero => exact (Nat.mod_one v).symm
  | succ n ih =>
    rw [paddedDigits, number_append, ih, Nat.pow_succ', Nat.mod_mul]
    simp [number]

/-- Nine digits hold a limb (R5). -/
theorem number_paddedDigits_limb (l : Limb) : number (paddedDigits LIMB_DIGITS l.val) = l.val :=
  (number_paddedDigits ..).trans (Nat.mod_eq_of_lt l.isLt)

theorem leadingDigits_lt_ten {v d : Nat} (h : d ∈ leadingDigits v) : d < 10 := by
  rw [leadingDigits] at h
  split at h
  · rw [List.mem_singleton.mp h]; decide
  · next hdrop => exact paddedDigits_lt_ten ((List.dropWhile_sublist _).mem (hdrop ▸ h))

theorem number_leadingDigits (l : Limb) : number (leadingDigits l.val) = l.val := by
  have hnum := number_dropWhile_zero (paddedDigits LIMB_DIGITS l.val)
  rw [number_paddedDigits_limb] at hnum
  rw [leadingDigits]
  split <;> next hdrop => rwa [hdrop] at hnum

/-- The ten characters: each is a digit, and its code gives the digit back. -/
theorem digitChar_spec : ∀ d < 10, (digitChar d).isDigit = true ∧ (digitChar d).toNat - 48 = d := by decide

theorem digits_map_digitChar {ds : List Nat} (h : ∀ d ∈ ds, d < 10) : digits (ds.map digitChar) = ds := by
  induction ds with
  | nil => rfl
  | cons d ds ih =>
    obtain ⟨hdigit, hval⟩ := digitChar_spec d (h d List.mem_cons_self)
    have hds := ih fun e he => h e (List.mem_cons_of_mem _ he)
    rw [List.map_cons, digits, List.filter_cons_of_pos hdigit, List.map_cons, hval]
    exact congrArg (d :: ·) hds

/-- Limbs of nine digits each, the most significant first, write the number of the sequence. -/
theorem number_flatMap_paddedDigits (ls : List Limb) :
    number (ls.flatMap fun k => paddedDigits LIMB_DIGITS k.val) = Mag.val ls.reverse := by
  induction ls with
  | nil => rfl
  | cons l ls ih =>
    have hlen : (ls.flatMap fun k => paddedDigits LIMB_DIGITS k.val).length = LIMB_DIGITS * ls.length := by
      simp [Nat.mul_comm]
    rw [List.flatMap_cons, number_append, ih, hlen, number_paddedDigits_limb, List.reverse_cons, Mag.val_append,
      List.length_reverse, radix_eq, Nat.pow_mul, Mag.val_cons, Mag.val_nil, Nat.mul_zero, Nat.add_zero]

/-- The text of a magnitude writes its number (R40). -/
theorem number_digits_limbsText (L : Mag) : number (digits (limbsText L)) = Mag.val L := by
  rw [← List.reverse_reverse L, limbsText, List.reverse_reverse]
  cases L.reverse with
  | nil => rfl
  | cons l ls =>
    have hten : ∀ d ∈ leadingDigits l.val ++ ls.flatMap fun k => paddedDigits LIMB_DIGITS k.val, d < 10 := by
      intro d hd
      obtain hd | hd := List.mem_append.mp hd
      · exact leadingDigits_lt_ten hd
      · obtain ⟨k, -, hd⟩ := List.mem_flatMap.mp hd
        exact paddedDigits_lt_ten hd
    -- the most significant limb's leading zeros are what the two texts differ in
    rw [← number_flatMap_paddedDigits, digits_map_digitChar hten, number_append, number_leadingDigits,
      List.flatMap_cons, number_append, number_paddedDigits_limb]

/-- Settles O59: the text writes the number, and trimmed limbs of that number are the normal form itself. -/
theorem textRoundTrip : Obligations.TextRoundTrip := by
  intro L hL
  refine ⟨number_digits_limbsText L, ?_⟩
  rw [Mag.trim_eq_limbs, val_textLimbs, number_digits_limbsText, Mag.limbs_val_of_normal hL]

end Sys2Proof.HostText

namespace Sys2Proof.Machine

/-! ## Which accesses have a meaning (R33) -/

theorem State.hostAccess_refused {s : State} {addr bytes : Nat} (h : ∀ off, s.offsetOf addr bytes ≠ .ok off) :
    (∃ r, s.hostAccess (.read addr bytes) = .refused r) ∧
      ∀ w, ∃ r, s.hostAccess (.write addr bytes w) = .refused r := by
  cases ho : s.offsetOf addr bytes with
  | ok off => exact absurd ho (h off)
  | error r => exact ⟨⟨r, by rw [State.hostAccess, ho]⟩, fun w => ⟨r, by rw [State.hostAccess, ho]⟩⟩

/-- Settles O45: an access has a meaning exactly when it has a window offset. -/
theorem onlyAlignedWordsHaveMeaning : Obligations.OnlyAlignedWordsHaveMeaning := by
  intro s addr bytes w
  refine ⟨?_, fun h => ?_⟩
  · rintro ⟨rfl, hbase, hend, h4⟩
    obtain ⟨off, rfl⟩ := Nat.exists_eq_add_of_le hbase
    have hw : off < windowBytes := Nat.lt_of_add_lt_add_left hend
    rw [Nat.add_sub_cancel_left] at h4
    exact ⟨⟨_, s.hostAccess_read h4 hw⟩, _, s.hostAccess_write h4 hw w⟩
  · have hoff : ∀ off, s.offsetOf addr bytes ≠ .ok off := fun off ho => by
      obtain ⟨rfl, rfl, hw, h4⟩ := State.offsetOf_eq_ok.mp ho
      exact h ⟨rfl, Nat.le_add_right .., Nat.add_lt_add_left hw _, by rwa [Nat.add_sub_cancel_left]⟩
    obtain ⟨hread, hwrite⟩ := State.hostAccess_refused hoff
    exact ⟨hread, hwrite w⟩

/-! ## The bytes of a buffer word (R32) -/

/-- Settles O44: byte `b` of the word is what remains above its `b` lowest bytes and below the rest. -/
theorem bufferBytesLittleEndian : Obligations.BufferBytesLittleEndian := by
  intro s j b hb
  rw [State.buf, State.bufWord, bufOffset]
  obtain rfl | rfl | rfl | rfl : b = 0 ∨ b = 1 ∨ b = 2 ∨ b = 3 := by omega
  · rw [BitVec.extractLsb'_append_eq_right, Nat.add_zero]
  · rw [BitVec.extractLsb'_append_eq_of_le (by decide), BitVec.extractLsb'_append_eq_right]
  · rw [BitVec.extractLsb'_append_eq_of_le (by decide), BitVec.extractLsb'_append_eq_of_le (by decide),
      BitVec.extractLsb'_append_eq_right]
  · rw [BitVec.extractLsb'_append_eq_of_le (by decide), BitVec.extractLsb'_append_eq_of_le (by decide),
      BitVec.extractLsb'_append_eq_of_le (by decide), BitVec.extractLsb'_eq_self]

end Sys2Proof.Machine

/-! The encoding: decoder and encoder are inverse to each other, the rows of R47's table select the
commands, and the pseudo-commands of R50. -/

namespace Sys2Proof

/-! ## Must-be-zero fields by way of the fields of format R (R43, R48 case 2) -/

section
variable (w : Word)

theorem bits_23_20_eq_zero : bits w 23 20 = 0 ↔ rdField w = 0 := by
  simp only [Fin.ext_iff, rdField, regField_val, bits_eq]; rfl

theorem bits_19_16_eq_zero : bits w 19 16 = 0 ↔ raField w = 0 := by
  simp only [Fin.ext_iff, raField, regField_val, bits_eq]; rfl

theorem bits_15_12_eq_zero : bits w 15 12 = 0 ↔ rbField w = 0 := by
  simp only [Fin.ext_iff, rbField, regField_val, bits_eq]; rfl

theorem bits_11_0_eq_zero : bits w 11 0 = 0 ↔ rcField w = 0 ∧ bits w 7 0 = 0 := by
  simp only [Fin.ext_iff, rcField, regField_val, bits_eq, Fin.val_zero]; omega

theorem bits_15_0_eq_zero : bits w 15 0 = 0 ↔ rbField w = 0 ∧ bits w 11 0 = 0 := by
  simp only [Fin.ext_iff, rbField, regField_val, bits_eq, Fin.val_zero]; omega

theorem bits_23_0_eq_zero : bits w 23 0 = 0 ↔ rdField w = 0 ∧ raField w = 0 ∧ bits w 15 0 = 0 := by
  simp only [Fin.ext_iff, rdField, raField, regField_val, bits_eq, Fin.val_zero]; omega

end

/-! ## Decoder and encoder (R43, R44, R47, R48) -/

/-- Bits 31:24 of the word of a command are its opcode (R47). -/
theorem bits_encode_opcode (i : Instr) : bits (encode i) 31 24 = i.opcode := by
  have h := i.opcode_lt
  cases i with
  | ld | ldi | shl | shr => exact Laws.OpcodeField.of_formatI h _ _ _
  | _ => exact Laws.OpcodeField.of_formatR h _ _ _ _

/-- `decode_eq_ok_iff` where the word has the command's opcode, one row at a time: what `decode` wants to
be 0 are the fields that `encode` leaves 0 (R43, R44, R48 case 2). -/
theorem decode_eq_ok_of_opcode {w : Word} {i : Instr} (hop : bits w 31 24 = i.opcode) :
    decode w = .ok i ↔ w = encode i ∧ i.wellFormed = true := by
  cases i with
  | shl | shr =>
    simp (disch := decide) only [decode, hop, encode, Instr.opcode, eq_formatI, Instr.wellFormed, Except.ok.injEq,
      Instr.shl.injEq, Instr.shr.injEq, true_and, and_true]
  | ld | ldi =>
    simp (disch := decide) only [decode, hop, ifZero_eq_ok, encode, Instr.opcode, eq_formatI, Instr.wellFormed,
      bits_19_16_eq_zero, Instr.ld.injEq, Instr.ldi.injEq, true_and, and_true]
    tauto
  | nop =>
    simp (disch := decide) only [decode, hop, ifZero_eq_ok, encode, Instr.opcode, eq_formatR, Instr.wellFormed,
      bits_23_0_eq_zero, bits_15_0_eq_zero, bits_11_0_eq_zero, true_and, and_true]
  | divrem rd rc ra rb =>
    simp (disch := decide) only [decode, hop, encode, Instr.opcode, eq_formatR, Instr.wellFormed, bne_iff_ne, true_and]
    split
    · next hsame =>
      simp only [reduceCtorEq, false_iff]
      rintro ⟨⟨hrd, -, -, hrc, -⟩, hne⟩
      exact hne (hrd ▸ hrc ▸ hsame.2)
    · next hok =>
      simp only [ifZero_eq_ok, Instr.divrem.injEq]
      constructor
      · rintro ⟨hz, rfl, rfl, rfl, rfl⟩
        exact ⟨⟨rfl, rfl, rfl, rfl, hz⟩, fun hsame => hok ⟨hz, hsame⟩⟩
      · rintro ⟨⟨hrd, hra, hrb, hrc, hz⟩, -⟩
        exact ⟨hz, hrd, hrc, hra, hrb⟩
  | st | mov | cmp =>
    simp (disch := decide) only [decode, hop, ifZero_eq_ok, encode, Instr.opcode, eq_formatR, Instr.wellFormed,
      Nat.add_eq_zero_iff, bits_23_20_eq_zero, bits_15_0_eq_zero, bits_11_0_eq_zero, Instr.st.injEq,
      Instr.mov.injEq, Instr.cmp.injEq, true_and, and_true]
    tauto
  | add | sub | mul | rem =>
    simp (disch := decide) only [decode, hop, ifZero_eq_ok, encode, Instr.opcode, eq_formatR, Instr.wellFormed,
      bits_11_0_eq_zero, Instr.add.injEq, Instr.sub.injEq, Instr.mul.injEq, Instr.rem.injEq, true_and,
      and_true]
    tauto
  | canon | addmod | submod | mulmod | powmod =>
    simp (disch := decide) only [decode, hop, ifZero_eq_ok, encode, Instr.opcode, eq_formatR, Instr.wellFormed,
      Nat.add_eq_zero_iff, bits_15_12_eq_zero, Instr.canon.injEq, Instr.addmod.injEq, Instr.submod.injEq,
      Instr.mulmod.injEq, Instr.powmod.injEq, true_and, and_true]
    tauto

/-- A word decodes to a command exactly when it is the command's one word and the command is legal. -/
theorem decode_eq_ok_iff {w : Word} {i : Instr} :
    decode w = .ok i ↔ w = encode i ∧ i.wellFormed = true := by
  by_cases hop : bits w 31 24 = i.opcode
  · exact decode_eq_ok_of_opcode hop
  · exact iff_of_false (fun h => hop (decode_ok_opcode h)) fun ⟨hw, _⟩ => hop (hw ▸ bits_encode_opcode i)

/-- Settles O1: the word in question is the command's own. -/
theorem decodeOfEncodeIsTheCommand : Obligations.DecodeOfEncodeIsTheCommand :=
  fun _ hi => decode_eq_ok_iff.mpr ⟨rfl, hi⟩

/-- Settles O2: the other direction of the same equivalence. -/
theorem decodedWordIsItsEncoding : Obligations.DecodedWordIsItsEncoding := by
  intro w i h
  obtain ⟨hw, hi⟩ := decode_eq_ok_iff.mp h
  exact ⟨hw.symm, hi⟩

/-- Settles O5: eleven closed words, evaluated. -/
theorem wordsOfTheSpecDecode : Obligations.WordsOfTheSpecDecode := by
  unfold Obligations.WordsOfTheSpecDecode
  decide

/-! ## The rows of R47's table -/

/-- The mask of `w[hi:lo]`. -/
def fieldMask (hi lo : Nat) : Word := BitVec.ofNat 32 ((2 ^ (hi + 1 - lo) - 1) <<< lo)

/-- The mask of all of the fields `fs`, each given by its highest and its lowest bit. -/
def fieldsMask : List (Nat × Nat) → Word
  | [] => 0
  | f :: fs => fieldMask f.1 f.2 ||| fieldsMask fs

/-- The must-be-zero fields of a command's row, highest and lowest bit (R47; `exists_decode_iff` ties them
to `decode`). -/
def Instr.zeroFields : Instr → List (Nat × Nat)
  | .nop => [(23, 0)]
  | .ld _ _ | .ldi _ _ => [(19, 16)]
  | .st _ => [(23, 20), (15, 0)]
  | .mov _ _ => [(15, 0)]
  | .add _ _ _ | .sub _ _ _ | .mul _ _ _ | .rem _ _ _ => [(11, 0)]
  | .shl _ _ _ | .shr _ _ _ => []
  | .cmp _ _ => [(23, 20), (11, 0)]
  | .canon _ _ _ => [(15, 12), (7, 0)]
  | .divrem _ _ _ _ | .addmod _ _ _ _ | .submod _ _ _ _ | .mulmod _ _ _ _ | .powmod _ _ _ _ => [(7, 0)]

/-- The row of a command: its mask covers the opcode and the must-be-zero fields (`Instr.row_mem` ties it
to R47's table). -/
def Instr.row (i : Instr) : OpcodeRow where
  mnemonic := i.mnemonic
  pattern := BitVec.ofNat 32 (i.opcode * 2 ^ 24)
  mask := fieldMask 31 24 ||| fieldsMask i.zeroFields

/-- A masked field as a number. -/
theorem and_fieldMask_toNat (w : Word) {hi lo : Nat} (hhi : hi < 32) (hlo : lo ≤ hi) :
    (w &&& fieldMask hi lo).toNat = bits w hi lo * 2 ^ lo := by
  have hlt : (2 ^ (hi + 1 - lo) - 1) <<< lo < 2 ^ 32 := by
    rw [Nat.shiftLeft_eq]
    calc (2 ^ (hi + 1 - lo) - 1) * 2 ^ lo < 2 ^ (hi + 1 - lo) * 2 ^ lo :=
          Nat.mul_lt_mul_of_pos_right (Nat.sub_lt (by positivity) (by decide)) (by positivity)
      _ = 2 ^ (hi + 1) := by rw [← Nat.pow_add, Nat.sub_add_cancel (by omega)]
      _ ≤ 2 ^ 32 := Nat.pow_le_pow_right (by decide) hhi
  rw [BitVec.toNat_and, fieldMask, BitVec.toNat_ofNat, Nat.mod_eq_of_lt hlt, bits_eq, ← Nat.shiftLeft_eq,
    ← Nat.shiftRight_eq_div_pow, ← Nat.and_two_pow_sub_one_eq_mod]
  refine Nat.eq_of_testBit_eq fun k => ?_
  by_cases hk : lo ≤ k
  · simp [hk, Bool.and_comm]
  · simp [hk]

theorem and_fieldMask_eq_zero (w : Word) {hi lo : Nat} (hhi : hi < 32) (hlo : lo ≤ hi) :
    w &&& fieldMask hi lo = 0 ↔ bits w hi lo = 0 := by
  rw [← BitVec.toNat_inj, and_fieldMask_toNat w hhi hlo]
  simp

theorem and_opcodeMask_eq (w : Word) {op : Nat} (hop : op < 256) :
    w &&& fieldMask 31 24 = BitVec.ofNat 32 (op * 2 ^ 24) ↔ bits w 31 24 = op := by
  rw [← BitVec.toNat_inj, and_fieldMask_toNat w (by decide) (by decide), BitVec.toNat_ofNat]
  omega

/-- A pattern that lies under the mask `m` and outside the mask `n` is checked one mask at a time. -/
theorem and_or_eq_iff {w m n p : Word} (hm : p &&& m = p) (hn : p &&& n = 0) :
    w &&& (m ||| n) = p ↔ w &&& m = p ∧ w &&& n = 0 := by
  constructor
  · intro h
    have hwm : w &&& (m ||| n) &&& m = w &&& m := by ext; grind
    have hwn : w &&& (m ||| n) &&& n = w &&& n := by ext; grind
    rw [h] at hwm hwn
    exact ⟨hwm ▸ hm, hwn ▸ hn⟩
  · rintro ⟨h1, h2⟩
    rw [BitVec.and_or_distrib_left, h1, h2]
    exact BitVec.or_zero

/-- The must-be-zero fields lie below the opcode, each with its highest bit first. -/
theorem Instr.zeroFields_lt (i : Instr) : ∀ f ∈ i.zeroFields, f.1 < 24 ∧ f.2 ≤ f.1 := by
  cases i <;> (simp only [Instr.zeroFields]; decide)

/-- No bit of the fields' mask is set in a word exactly when every field reads 0. -/
theorem and_fieldsMask_eq_zero (w : Word) {fs : List (Nat × Nat)}
    (hfs : ∀ f ∈ fs, f.1 < 24 ∧ f.2 ≤ f.1) :
    w &&& fieldsMask fs = 0 ↔ ∀ f ∈ fs, bits w f.1 f.2 = 0 := by
  induction fs with
  | nil => simp [fieldsMask]
  | cons f fs ih =>
    obtain ⟨⟨hhi, hlo⟩, hfs⟩ := List.forall_mem_cons.mp hfs
    rw [List.forall_mem_cons, ← ih hfs, ← and_fieldMask_eq_zero w (by omega) hlo, fieldsMask]
    exact and_or_eq_iff (by simp) (by simp)

/-- A word is in a command's row exactly when it has the command's opcode and its must-be-zero fields
read 0 (R47). -/
theorem matches_row_iff (w : Word) (i : Instr) :
    w &&& i.row.mask = i.row.pattern ↔
      bits w 31 24 = i.opcode ∧ ∀ f ∈ i.zeroFields, bits w f.1 f.2 = 0 := by
  have hp : i.row.pattern &&& fieldMask 31 24 = i.row.pattern ∧
      i.row.pattern &&& fieldsMask i.zeroFields = 0 := by
    cases i <;> (simp only [Instr.row, Instr.opcode, Instr.zeroFields]; decide)
  rw [← and_opcodeMask_eq w i.opcode_lt, ← and_fieldsMask_eq_zero w i.zeroFields_lt]
  exact and_or_eq_iff hp.1 hp.2

/-- A word with the opcode of `i` decodes exactly when the must-be-zero fields of that opcode read 0 and,
for `DIVREM`, also `rd != rc` (R48). -/
theorem exists_decode_iff {w : Word} {i : Instr} (hop : bits w 31 24 = i.opcode) :
    (∃ j, decode w = .ok j) ↔
      (∀ f ∈ i.zeroFields, bits w f.1 f.2 = 0) ∧
        (i.mnemonic = "DIVREM" → rdField w ≠ rcField w) := by
  cases i with
  | divrem =>
    simp only [decode, hop, Instr.opcode, Instr.zeroFields, Instr.mnemonic, List.forall_mem_singleton, true_implies]
    split
    · next hsame => simpa using fun _ => hsame.2
    · next hok => simpa [ifZero_eq_ok] using fun hz hsame => hok ⟨hz, hsame⟩
  | _ =>
    simp [decode, hop, Instr.opcode, ifZero_eq_ok, Instr.zeroFields, Instr.mnemonic]

/-- R47's table lists every command's row. -/
theorem Instr.row_mem (i : Instr) : i.row ∈ opcodeTable := by
  cases i <;> (simp only [Instr.row, Instr.mnemonic, Instr.opcode, Instr.zeroFields]; decide)

/-- Every row is the row of a command. -/
theorem exists_row_eq {row : OpcodeRow} (h : row ∈ opcodeTable) : ∃ i : Instr, i.row = row := by
  have htable : opcodeTable = List.map Instr.row
      [.nop, .ld 0 0, .st 0, .mov 0 0, .ldi 0 0, .add 0 0 0, .sub 0 0 0, .mul 0 0 0, .shl 0 0 0, .shr 0 0 0,
       .cmp 0 0, .divrem 0 0 0 0, .rem 0 0 0, .canon 0 0 0, .addmod 0 0 0 0, .submod 0 0 0 0,
       .mulmod 0 0 0 0, .powmod 0 0 0 0] := by decide
  rw [htable] at h
  obtain ⟨i, -, hi⟩ := List.mem_map.mp h
  exact ⟨i, hi⟩

theorem eq_of_mnemonic_eq : ∀ row ∈ opcodeTable, ∀ row' ∈ opcodeTable,
    row.mnemonic = row'.mnemonic → row = row' := by
  decide

theorem eq_of_pattern_and_mask_eq : ∀ row ∈ opcodeTable, ∀ row' ∈ opcodeTable,
    row.pattern &&& row'.mask = row'.pattern &&& row.mask → row = row' := by
  decide

/-- A word matches at most one row (R47): under both masks it would have to read as both patterns. -/
theorem eq_of_matches {row row' : OpcodeRow} (h : row ∈ opcodeTable) (h' : row' ∈ opcodeTable) {w : Word}
    (hw : w &&& row.mask = row.pattern) (hw' : w &&& row'.mask = row'.pattern) : row = row' := by
  refine eq_of_pattern_and_mask_eq row h row' h' ?_
  rw [← hw, ← hw', BitVec.and_assoc, BitVec.and_assoc, BitVec.and_comm row.mask]

/-- A word that decodes is the command of its command's row. -/
theorem matches_row_of_decode {w : Word} {i : Instr} (h : decode w = .ok i) :
    w &&& i.row.mask = i.row.pattern ∧ (i.row.mnemonic = "DIVREM" → rdField w ≠ rcField w) := by
  have hop := decode_ok_opcode h
  obtain ⟨hzero, hdiv⟩ := (exists_decode_iff hop).mp ⟨i, h⟩
  exact ⟨(matches_row_iff w i).mpr ⟨hop, hzero⟩, hdiv⟩

/-- A word that is the command of a row decodes (R47). -/
theorem exists_decode_of_matches {row : OpcodeRow} (h : row ∈ opcodeTable) {w : Word}
    (hw : w &&& row.mask = row.pattern) (hdiv : row.mnemonic = "DIVREM" → rdField w ≠ rcField w) :
    ∃ i, decode w = .ok i := by
  obtain ⟨i, rfl⟩ := exists_row_eq h
  obtain ⟨hop, hzero⟩ := (matches_row_iff w i).mp hw
  exact (exists_decode_iff hop).mpr ⟨hzero, hdiv⟩

/-- Settles O3: the row of the decoded command is the one row with its mnemonic, and the one row the word
matches. -/
theorem tableRowsSelectCommands : Obligations.TableRowsSelectCommands := by
  refine ⟨fun row hrow w => ⟨?_, ?_⟩, fun row hrow row' hrow' w => eq_of_matches hrow hrow'⟩
  · rintro ⟨i, hi, hm⟩
    obtain rfl : i.row = row := eq_of_mnemonic_eq _ i.row_mem _ hrow hm
    exact matches_row_of_decode hi
  · rintro ⟨hw, hdiv⟩
    obtain ⟨i, hi⟩ := exists_decode_of_matches hrow hw hdiv
    have hr : i.row = row := eq_of_matches i.row_mem hrow (matches_row_of_decode hi).1 hw
    exact ⟨i, hi, congrArg OpcodeRow.mnemonic hr⟩

end Sys2Proof

namespace Sys2Proof.Machine

/-- The completion of a word that does not decode (R48, R76). -/
theorem State.completeCurrent_of_illegal {s : State} (h : ∀ i, decode s.cur ≠ .ok i) :
    s.completeCurrent = .next (s.faulted 1) := by
  cases hd : decode s.cur with
  | ok i => exact absurd hd (h i)
  | error e => rw [State.completeCurrent, hd]; rfl

/-- Settles O4: a word that decodes is the command of its command's row, and a command of a row decodes. -/
theorem illegalWordsFaultAtCompletion : Obligations.IllegalWordsFaultAtCompletion := by
  intro s
  refine ⟨fun h => State.completeCurrent_of_illegal fun i hi =>
    h i.row i.row_mem (matches_row_of_decode hi), ?_⟩
  rintro ⟨row, hrow, hw, hdiv⟩
  obtain ⟨i, hi⟩ := exists_decode_of_matches hrow hw hdiv
  exact ⟨i, hi, State.completeCurrent_of_decode hi⟩

/-! ## Commands that write one register that fits (R56, R60, R61, R65, R71) -/

section
variable {s : State}

/-- A command whose result is one register write that fits completes with it (R13, R21). -/
theorem exec_of_writeReg {i : Instr} {r : RegName} {L : Mag} (h : resultOf i s = s.writeReg r L)
    (hl : L.length ≤ s.lmax) : exec i s = .next (s.setReg r L).completed := by
  rw [exec_eq, h, State.writeReg_of_fits r hl]
  rfl

/-- A number not above a register's fits `LMAX` limbs. -/
theorem State.Inv.nlimbs_le {n : Nat} (h : s.Inv) (r : RegName) (hn : n ≤ s.value r) :
    Mag.nlimbs n ≤ s.lmax :=
  (Mag.nlimbs_mono hn).trans (h.nlimbs_value_le r)

theorem State.Inv.exec_ldi (h : s.Inv) (rd : RegName) (imm : BitVec 16) :
    exec (.ldi rd imm) s = .next (s.setReg rd [Mag.limbOf imm.toNat]).completed :=
  exec_of_writeReg rfl h.lmax_pos

/-- `SHL` where the shifted sequence fits (R60). -/
theorem State.Inv.exec_shl_of_fits (h : s.Inv) (rd : RegName) {ra : RegName} {k : BitVec 16}
    (hk : (s.reg ra).length + k.toNat ≤ s.lmax) :
    exec (.shl rd ra k) s
      = .next (s.setReg rd (Mag.limbs (s.value ra * RADIX ^ k.toNat))).completed := by
  refine exec_of_writeReg (congrArg (s.writeReg rd) (Mag.shl_eq_limbs ..))
    ((Mag.nlimbs_le_iff _ _ h.lmax_pos).mpr ?_)
  calc s.value ra * RADIX ^ k.toNat < RADIX ^ (s.reg ra).length * RADIX ^ k.toNat :=
        Nat.mul_lt_mul_of_pos_right (Mag.val_lt _) (Nat.pow_pos (by decide))
    _ = RADIX ^ ((s.reg ra).length + k.toNat) := (Nat.pow_add ..).symm
    _ ≤ RADIX ^ s.lmax := Nat.pow_le_pow_right (by decide) hk

theorem State.Inv.exec_shr (h : s.Inv) (rd ra : RegName) (k : BitVec 16) :
    exec (.shr rd ra k) s
      = .next (s.setReg rd (Mag.limbs (s.value ra / RADIX ^ k.toNat))).completed :=
  exec_of_writeReg (congrArg (s.writeReg rd) (Mag.shr_eq_limbs ..)) (h.nlimbs_le ra (Nat.div_le_self ..))

/-- `REM` with a divisor that is not 0 (R65). -/
theorem State.Inv.exec_rem_of_ne_zero (h : s.Inv) (rd ra : RegName) {rb : RegName} (hb : s.value rb ≠ 0) :
    exec (.rem rd ra rb) s = .next (s.setReg rd (Mag.limbs (s.value ra % s.value rb))).completed := by
  refine exec_of_writeReg ?_ (h.nlimbs_le ra (Nat.mod_le ..))
  rw [resultOf, if_neg hb, Divider.divRem_eq _ _ (Nat.pos_of_ne_zero hb)]

/-- `MULMOD` with a modulus that is not 0 (R71). -/
theorem State.Inv.exec_mulmod_of_ne_zero (h : s.Inv) (rd ra rb : RegName) {rc : RegName}
    (hc : s.value rc ≠ 0) :
    exec (.mulmod rd ra rb rc) s
      = .next (s.setReg rd (Mag.limbs (s.value ra * s.value rb % s.value rc))).completed := by
  refine exec_of_writeReg ?_ (h.nlimbs_le rc (Nat.mod_lt _ (Nat.pos_of_ne_zero hc)).le)
  rw [resultOf, State.modResult, if_neg hc, Modular.mulMod_eq]

end

/-- Settles O32: each pseudo-command is its command with the operands of R50's row. -/
theorem pseudoCommandEffects : Obligations.PseudoCommandEffects := by
  intro s rd ra rb rc k h
  refine ⟨h.exec_ldi rd 0, h.exec_ldi rd 1, h.exec_shl_of_fits rd, h.exec_shr rd rd k,
    h.exec_rem_of_ne_zero rd rd, fun hc => ?_⟩
  rw [Nat.pow_two]
  exact h.exec_mulmod_of_ne_zero rd ra ra hc

end Sys2Proof.Machine

/-! The movement of data: `NOP`, `LD`, `ST`, `MOV` and `LDI` (R52 to R56). -/

namespace Sys2Proof

/-- A legal command has exactly one word (R47). -/
theorem decode_eq_ok_iff_of_wellFormed {w : Word} {i : Instr} (hi : i.wellFormed = true) :
    decode w = .ok i ↔ w = encode i := by
  rw [decode_eq_ok_iff, and_iff_left hi]

end Sys2Proof

namespace Sys2Proof.Mag

/-- Trimming keeps a sequence in normal form (R11). -/
theorem trim_of_normal {L : Mag} (h : Normal L) : trim L = L := by
  rw [trim_eq_limbs, limbs_val_of_normal h]

end Sys2Proof.Mag

namespace Sys2Proof.Machine

/-- A command that faults leaves the four lines of R76. -/
theorem exec_of_error {s : State} {i : Instr} {f : FaultCause} (h : resultOf i s = .error f) :
    exec i s = .next (s.faulted f.code) := by
  rw [exec_eq, h]
  rfl

/-! ## Words and limbs (R31, R53, R54) -/

theorem isLimb_iff {w : Word} : isLimb w = true ↔ w.toNat < RADIX :=
  decide_eq_true_iff

theorem isLimb_limbWord (l : Limb) : isLimb (limbWord l) = true := by
  rw [isLimb_iff, limbWord_toNat]
  exact l.isLt

theorem limbOf_limbWord (l : Limb) : Mag.limbOf (limbWord l).toNat = l := by
  rw [limbWord_toNat, Mag.limbOf_self]

theorem limbWord_limbOf {w : Word} (h : w.toNat < RADIX) : limbWord (Mag.limbOf w.toNat) = w := by
  rw [← BitVec.toNat_inj, limbWord_toNat, Mag.limbOf_val, Nat.mod_eq_of_lt h]

section
variable {s t : State} {n : Nat}

theorem State.bufWords_length (s : State) (n : Nat) : (s.bufWords n).length = n := by
  simp [State.bufWords]

/-- The first `n` words all are limbs (R53). -/
theorem State.bufWords_all_isLimb :
    (s.bufWords n).all isLimb = true ↔ ∀ j, j < n → (s.buf j).toNat < RADIX := by
  simp [State.bufWords, isLimb_iff]

/-- Words below `RADIX` are the words of the limbs with their values. -/
theorem State.bufWords_eq_map_limbWord (h : ∀ j, j < n → (s.buf j).toNat < RADIX) :
    s.bufWords n = ((List.range n).map fun j => Mag.limbOf (s.buf j).toNat).map limbWord := by
  rw [List.map_map]
  exact List.map_congr_left fun j hj => (limbWord_limbOf (h j (List.mem_range.mp hj))).symm

/-! ## Loading words (R53) -/

theorem loadResult_of_too_long (rd : RegName) (h : s.lmax < n) :
    loadResult rd n s = .error .lengthRange :=
  if_pos h

theorem loadResult_of_not_limb (rd : RegName) (hn : n ≤ s.lmax)
    (h : ∃ j, j < n ∧ RADIX ≤ (s.buf j).toNat) : loadResult rd n s = .error .limbRange := by
  have hall : ¬(s.bufWords n).all isLimb = true := by
    rw [State.bufWords_all_isLimb]
    obtain ⟨j, hj, hw⟩ := h
    exact fun hlt => (hlt j hj).not_ge hw
  rw [loadResult, if_neg hn.not_gt, if_neg hall]

/-- Loading the words of the limbs `L` writes `L` trimmed. -/
theorem loadResult_of_limbWords (rd : RegName) {L : Mag} (hn : n ≤ s.lmax)
    (h : s.bufWords n = L.map limbWord) : loadResult rd n s = s.writeReg rd (Mag.trim L) := by
  have hall : (L.map limbWord).all isLimb = true := by simp [isLimb_limbWord]
  have hL : ((L.map limbWord).map fun w => Mag.limbOf w.toNat) = L := by
    rw [List.map_map]
    exact (List.map_congr_left fun l _ => limbOf_limbWord l).trans L.map_id
  rw [loadResult, if_neg hn.not_gt, h, if_pos hall, hL]

/-- `LD` of the words of the limbs `L`, which fit because there are at most `LMAX` of them. -/
theorem exec_ld_of_limbWords (hpos : 1 ≤ s.lmax) (rd : RegName) {k : BitVec 16} {L : Mag}
    (hk : k.toNat ≤ s.lmax) (h : s.bufWords k.toNat = L.map limbWord) :
    exec (.ld rd k) s = .next (s.setReg rd (Mag.trim L)).completed := by
  have hlen : L.length = k.toNat := by
    rw [← L.length_map (f := limbWord), ← h, State.bufWords_length]
  refine exec_of_writeReg (loadResult_of_limbWords rd hk h) ((Mag.trim_length_le L).trans ?_)
  exact max_le hpos (hlen ▸ hk)

/-! ## Storing limbs (R54) -/

/-- `ST` writes the byte list and `BUFLEN` and completes. -/
theorem eq_completed_of_exec_st {ra : RegName} (h : exec (.st ra) s = .next t) :
    t = State.completed { s with mem := t.mem, buflen := t.buflen } := by
  rw [exec_eq_next] at h
  rw [h, resultOf, State.complete_ok, State.storeLimbs_eq]
  rfl

theorem buf_of_exec_st {ra : RegName} (h : exec (.st ra) s = .next t) {j : Nat}
    (hj : j < (s.reg ra).length) : t.buf j = limbWord (s.reg ra)[j] := by
  obtain rfl := exec_eq_next.mp h
  have hb := s.storeLimbs_buf (s.reg ra) 0 j hj
  rwa [Nat.zero_add] at hb

theorem State.Inv.buflen_of_exec_st (hs : s.Inv) {ra : RegName} (h : exec (.st ra) s = .next t) :
    t.buflen.toNat = (s.reg ra).length := by
  have hlt : (s.reg ra).length < 2 ^ 16 :=
    ((hs.regs_fit ra).trans hs.lmax_le).trans_lt (by decide)
  obtain rfl := exec_eq_next.mp h
  exact Nat.mod_eq_of_lt hlt

/-- After `ST` the first words of the buffer are the register's limbs. -/
theorem bufWords_of_exec_st {ra : RegName} (h : exec (.st ra) s = .next t) :
    t.bufWords (s.reg ra).length = (s.reg ra).map limbWord :=
  List.ext_getElem (by simp [State.bufWords]) fun j hj _ => by
    rw [State.bufWords_length] at hj
    simpa [State.bufWords] using buf_of_exec_st h hj

end

/-! ## The statements of `spec/40_data_movement.md` -/

/-- Settles O10: the two checks in their order, then the words as limbs and the number they stand for. -/
theorem ldLoadsBufferWords : Obligations.LdLoadsBufferWords := by
  intro s rd n hs
  refine ⟨fun _ => decode_eq_ok_iff_of_wellFormed rfl,
    fun hn => exec_of_error (i := .ld rd n) (loadResult_of_too_long rd hn),
    fun hn hw => exec_of_error (i := .ld rd n) (loadResult_of_not_limb rd hn hw), fun hn hw => ?_⟩
  rw [exec_ld_of_limbWords hs.lmax_pos rd hn (State.bufWords_eq_map_limbWord hw), Mag.trim_eq_limbs,
    Mag.val_map_limbOf (fun j => (s.buf j).toNat) _ hw]

/-- Settles O11: what `ST` leaves, one field at a time; the bytes outside its words by the frame of every
command. -/
theorem stWritesLimbs : Obligations.StWritesLimbs := by
  intro s ra hs
  have h := exec_eq (.st ra) s
  obtain ⟨-, -, -, hbytes, -⟩ := commandFrame s _ _ h
  exact ⟨fun _ => decode_eq_ok_iff_of_wellFormed rfl, _, h,
    fun j hj => by rw [buf_of_exec_st h hj, limbWord_toNat], hbytes ra rfl,
    hs.buflen_of_exec_st h, eq_completed_of_exec_st h⟩

/-- Settles O12: the words that `LD` finds are the register's limbs, and trimming keeps a normal form. -/
theorem stThenLdCopies : Obligations.StThenLdCopies := by
  intro s t ra rd hs h
  have ht := eq_completed_of_exec_st h
  have hlmax : t.lmax = s.lmax := (congrArg State.lmax ht :)
  have hregs : t.regs = s.regs := (congrArg State.regs ht :)
  have hlen : t.buflen.toNat = (s.reg ra).length := hs.buflen_of_exec_st h
  have hwords : t.bufWords t.buflen.toNat = (s.reg ra).map limbWord := hlen ▸ bufWords_of_exec_st h
  have htrim : Mag.trim (s.reg ra) = s.reg ra := Mag.trim_of_normal (hs.regs_normal ra)
  refine ⟨?_, fun q => ?_⟩
  · rw [exec_ld_of_limbWords (hlmax ▸ hs.lmax_pos) rd (hlen ▸ hlmax ▸ hs.regs_fit ra) hwords, htrim]
  · show (t.setReg rd (s.reg ra)).reg q = _
    obtain rfl | hq := eq_or_ne q rd
    · rw [State.reg_setReg_same, if_pos rfl]
    · rw [State.reg_setReg_ne t hq, if_neg hq]
      exact State.reg_congr hregs q

/-- Settles O9: the one word of `NOP` is 0, and its result is the state itself. -/
theorem nopCompletes : Obligations.NopCompletes :=
  ⟨fun _ => decode_eq_ok_iff_of_wellFormed rfl, fun _ => rfl⟩

/-- Settles O13: the register copied fits, so the write succeeds. -/
theorem movCopies : Obligations.MovCopies :=
  fun _ _ ra hs => ⟨fun _ => decode_eq_ok_iff_of_wellFormed rfl, exec_of_writeReg rfl (hs.regs_fit ra)⟩

/-- Settles O14: `imm16` is below `RADIX`, so its limb has its value. -/
theorem ldiMakesOneLimb : Obligations.LdiMakesOneLimb := by
  intro s rd imm hs
  have hlt : imm.toNat < RADIX := imm.isLt.trans (by decide)
  exact ⟨fun _ => decode_eq_ok_iff_of_wellFormed rfl, Mag.limbOf imm.toNat, Nat.mod_eq_of_lt hlt,
    hs.exec_ldi rd imm⟩

end Sys2Proof.Machine

/-! The arithmetic of magnitudes: `ADD`, `SUB`, `MUL`, `SHL`, `SHR` and `CMP` (R57 to R63). -/

namespace Sys2Proof.Mag

/-! ## How many limbs a sum and a product take (R57, R59, R60) -/

theorem lt_radix_pow_nlimbs (n : Nat) : n < RADIX ^ nlimbs n :=
  (nlimbs_le_iff n _ (one_le_nlimbs n)).mp le_rfl

/-- A number that is not 0 needs more than `k` limbs exactly when it reaches `RADIX ^ k`. -/
theorem lt_nlimbs_iff {n k : Nat} (hn : n ≠ 0) : k < nlimbs n ↔ RADIX ^ k ≤ n := by
  obtain rfl | hk := Nat.eq_zero_or_pos k
  · exact iff_of_true (one_le_nlimbs n) (Nat.pos_of_ne_zero hn)
  · rw [← not_le, nlimbs_le_iff n k hk, not_lt]

theorem radix_pow_pred_nlimbs_le {n : Nat} (hn : n ≠ 0) : RADIX ^ (nlimbs n - 1) ≤ n :=
  (lt_nlimbs_iff hn).mp (Nat.sub_one_lt_of_lt (one_le_nlimbs n))

theorem max_nlimbs_le_nlimbs_add (a b : Nat) : max (nlimbs a) (nlimbs b) ≤ nlimbs (a + b) :=
  max_le (nlimbs_mono (Nat.le_add_right a b)) (nlimbs_mono (Nat.le_add_left b a))

/-- The final carry is one limb (R57). -/
theorem nlimbs_add_le (a b : Nat) : nlimbs (a + b) ≤ max (nlimbs a) (nlimbs b) + 1 := by
  rw [nlimbs_le_iff _ _ (Nat.le_add_left 1 _)]
  have ha := (lt_radix_pow_nlimbs a).trans_le
    (Nat.pow_le_pow_right (by decide) (le_max_left (nlimbs a) (nlimbs b)))
  have hb := (lt_radix_pow_nlimbs b).trans_le
    (Nat.pow_le_pow_right (by decide) (le_max_right (nlimbs a) (nlimbs b)))
  rw [Nat.pow_succ]
  simp only [RADIX] at *
  omega

theorem nlimbs_mul_le (a b : Nat) : nlimbs (a * b) ≤ nlimbs a + nlimbs b := by
  rw [nlimbs_le_iff _ _ (Nat.le_add_right_of_le (one_le_nlimbs a)), Nat.pow_add]
  exact Nat.mul_lt_mul'' (lt_radix_pow_nlimbs a) (lt_radix_pow_nlimbs b)

/-- A product of numbers that are not 0 is at most one limb short of its operands' limbs together. -/
theorem nlimbs_add_nlimbs_le {a b : Nat} (ha : a ≠ 0) (hb : b ≠ 0) :
    nlimbs a + nlimbs b ≤ nlimbs (a * b) + 1 := by
  have h : nlimbs a - 1 + (nlimbs b - 1) < nlimbs (a * b) := by
    rw [lt_nlimbs_iff (Nat.mul_ne_zero ha hb), Nat.pow_add]
    exact Nat.mul_le_mul (radix_pow_pred_nlimbs_le ha) (radix_pow_pred_nlimbs_le hb)
  omega

/-- Shifting a number that is not 0 left by `k` limbs takes `k` limbs more (R60). -/
theorem nlimbs_add_le_nlimbs_mul_radix_pow {a : Nat} (ha : a ≠ 0) (k : Nat) :
    nlimbs a + k ≤ nlimbs (a * RADIX ^ k) := by
  have hpow : RADIX ^ k ≠ 0 := pow_ne_zero k (by decide)
  have hk : k < nlimbs (RADIX ^ k) := (lt_nlimbs_iff hpow).mpr le_rfl
  have hmul := nlimbs_add_nlimbs_le ha hpow
  omega

end Sys2Proof.Mag

namespace Sys2Proof.Machine

section
variable {s : State}

theorem State.Inv.nlimbs_value (h : s.Inv) (r : RegName) : Mag.nlimbs (s.value r) = (s.reg r).length :=
  Mag.nlimbs_val_of_normal (h.regs_normal r)

/-! ## The results as numbers (R57 to R60, R62) -/

theorem resultOf_add (s : State) (rd ra rb : RegName) :
    resultOf (.add rd ra rb) s = s.writeReg rd (Mag.limbs (s.value ra + s.value rb)) :=
  congrArg (s.writeReg rd) (Mag.add_eq_limbs ..)

theorem resultOf_mul (s : State) (rd ra rb : RegName) :
    resultOf (.mul rd ra rb) s = s.writeReg rd (Mag.limbs (s.value ra * s.value rb)) :=
  congrArg (s.writeReg rd) (Mag.mul_eq_limbs ..)

theorem resultOf_shl (s : State) (rd ra : RegName) (k : BitVec 16) :
    resultOf (.shl rd ra k) s = s.writeReg rd (Mag.limbs (s.value ra * RADIX ^ k.toNat)) :=
  congrArg (s.writeReg rd) (Mag.shl_eq_limbs ..)

/-- Under the invariant the comparator compares the registers' numbers (R17). -/
theorem State.Inv.cmp_reg (h : s.Inv) (ra rb : RegName) :
    Mag.cmp (s.reg ra) (s.reg rb) = compare (s.value ra) (s.value rb) :=
  Mag.cmp_eq_compare (h.regs_normal ra) (h.regs_normal rb)

theorem State.Inv.resultOf_sub_of_le (h : s.Inv) (rd : RegName) {ra rb : RegName}
    (hle : s.value rb ≤ s.value ra) :
    resultOf (.sub rd ra rb) s = s.writeReg rd (Mag.limbs (s.value ra - s.value rb)) := by
  have hge : Mag.cmp (s.reg ra) (s.reg rb) ≠ .lt := by
    rw [h.cmp_reg, Ne, compare_lt_iff_lt]
    exact hle.not_gt
  rw [resultOf, if_neg hge, Mag.sub_eq_limbs hle]
  rfl

theorem State.Inv.resultOf_sub_of_lt (h : s.Inv) (rd : RegName) {ra rb : RegName}
    (hlt : s.value ra < s.value rb) : resultOf (.sub rd ra rb) s = .error .subUnderflow :=
  if_pos ((h.cmp_reg ra rb).trans (compare_lt_iff_lt.mpr hlt))

/-- The flags after comparing two numbers (R17). -/
theorem State.setFlags_compare (s : State) (m n : Nat) :
    s.setFlags (compare m n) = { s with flagEq := decide (m = n), flagLt := decide (m < n) } := by
  have heq : (compare m n == .eq) = decide (m = n) := by
    rw [Bool.eq_iff_iff, beq_iff_eq, compare_eq_iff_eq, decide_eq_true_iff]
  have hlt : (compare m n == .lt) = decide (m < n) := by
    rw [Bool.eq_iff_iff, beq_iff_eq, compare_lt_iff_lt, decide_eq_true_iff]
  rw [State.setFlags, heq, hlt]

/-- A command whose result is one register write that does not fit faults with `CapacityOverflow` (R13). -/
theorem exec_of_overflow {i : Instr} {r : RegName} {L : Mag} (h : resultOf i s = s.writeReg r L)
    (hl : s.lmax < L.length) : exec i s = .next (s.faulted 4) :=
  exec_of_error (h.trans (State.writeReg_of_overflow r hl))

end

/-! ## The statements of `spec/41_magnitude_arithmetic.md` -/

/-- Settles O15: a sum takes as many limbs as its longer operand or one more, and the operands fit. -/
theorem addGivesSum : Obligations.AddGivesSum := by
  intro s rd ra rb
  refine ⟨fun _ => decode_eq_ok_iff_of_wellFormed rfl, exec_of_writeReg (resultOf_add s rd ra rb),
    exec_of_overflow (resultOf_add s rd ra rb), fun hs => ?_⟩
  have hlow := Mag.max_nlimbs_le_nlimbs_add (s.value ra) (s.value rb)
  have hhigh := Mag.nlimbs_add_le (s.value ra) (s.value rb)
  rw [hs.nlimbs_value, hs.nlimbs_value] at hlow hhigh
  have hfit : max (s.reg ra).length (s.reg rb).length ≤ s.lmax := max_le (hs.regs_fit ra) (hs.regs_fit rb)
  exact ⟨by omega, fun hover => by omega⟩

/-- Settles O16: the comparator finds the underflow, and a difference fits where its minuend does. -/
theorem subGivesDifference : Obligations.SubGivesDifference := by
  intro s rd ra rb hs
  exact ⟨fun _ => decode_eq_ok_iff_of_wellFormed rfl,
    fun hle => exec_of_writeReg (hs.resultOf_sub_of_le rd hle) (hs.nlimbs_le ra (Nat.sub_le ..)),
    fun hlt => exec_of_error (hs.resultOf_sub_of_lt rd hlt)⟩

/-- Settles O17: the product of `la` and `lb` limbs takes `la + lb` limbs or one less. -/
theorem mulGivesProduct : Obligations.MulGivesProduct := by
  intro s rd ra rb
  refine ⟨fun _ => decode_eq_ok_iff_of_wellFormed rfl, exec_of_writeReg (resultOf_mul s rd ra rb),
    exec_of_overflow (resultOf_mul s rd ra rb), fun hs ha hb => ?_⟩
  have hlow := Mag.nlimbs_add_nlimbs_le ha hb
  have hhigh := Mag.nlimbs_mul_le (s.value ra) (s.value rb)
  rw [hs.nlimbs_value, hs.nlimbs_value] at hlow hhigh
  omega

/-- Settles O18: 0 shifted is 0 and fits; any other number takes `k` limbs more. -/
theorem shlMultipliesByRadixPower : Obligations.ShlMultipliesByRadixPower := by
  intro s rd ra k hs
  refine ⟨fun _ => decode_eq_ok_iff_of_wellFormed rfl, ?_, fun ha hover => ?_⟩
  · rintro (hzero | hfit)
    · have hle : s.value ra * RADIX ^ k.toNat ≤ s.value ra := by rw [hzero, Nat.zero_mul]
      exact exec_of_writeReg (resultOf_shl s rd ra k) (hs.nlimbs_le ra hle)
    · exact hs.exec_shl_of_fits rd hfit
  · have hlong := Mag.nlimbs_add_le_nlimbs_mul_radix_pow ha k.toNat
    rw [hs.nlimbs_value] at hlong
    exact exec_of_overflow (resultOf_shl s rd ra k) (hover.trans_le hlong)

/-- Settles O19: the quotient fits where the number shifted does. -/
theorem shrDividesByRadixPower : Obligations.ShrDividesByRadixPower :=
  fun _ rd ra k hs => ⟨fun _ => decode_eq_ok_iff_of_wellFormed rfl, hs.exec_shr rd ra k⟩

/-- Settles O20: on normal forms the comparator's outcome is the comparison of the numbers. -/
theorem cmpComparesNumbers : Obligations.CmpComparesNumbers := by
  intro s ra rb hs
  refine ⟨fun _ => decode_eq_ok_iff_of_wellFormed rfl, ?_⟩
  rw [exec_eq, resultOf, hs.cmp_reg, State.setFlags_compare]
  rfl

/-- Settles O21: both results depend on the sum or the product of the numbers alone. -/
theorem addAndMulCommute : Obligations.AddAndMulCommute := by
  intro s rd ra rb
  constructor
  · rw [exec_eq, exec_eq, resultOf_add, resultOf_add, Nat.add_comm]
  · rw [exec_eq, exec_eq, resultOf_mul, resultOf_mul, Nat.mul_comm]

end Sys2Proof.Machine

/-! Division: `DIVREM`, `REM`, and `CANON` as `REM` (R64 to R66, R68). -/

namespace Sys2Proof

/-- `DIVREM` with one register for both destinations has no legal word (R48 case 3). -/
theorem decode_divrem_sameDestination (rd ra rb : RegName) :
    decode (formatR 0x18 rd ra rb rd) = .error (.sameDestination rd) := by
  obtain ⟨hop, hrd, -, -, hrc, hz, -⟩ := fields_formatR (op := 0x18) (by decide) rd ra rb rd rfl
  simp only [decode, hop]
  rw [if_pos ⟨hz, hrd.trans hrc.symm⟩, hrd]

end Sys2Proof

namespace Sys2Proof.Machine

section
variable {s : State}

@[simp] theorem State.completed_reg (r : RegName) : s.completed.reg r = s.reg r := rfl

/-! ## The results as numbers (R64, R65) -/

theorem resultOf_divrem_of_zero {rd rc : RegName} (ra : RegName) {rb : RegName} (hne : rd ≠ rc)
    (hb : s.value rb = 0) : resultOf (.divrem rd rc ra rb) s = .error .divisionByZero := by
  rw [resultOf, divremResult, if_neg hne, if_pos hb]

theorem resultOf_rem_of_zero (rd ra : RegName) {rb : RegName} (hb : s.value rb = 0) :
    resultOf (.rem rd ra rb) s = .error .divisionByZero :=
  if_pos hb

/-- Under the invariant quotient and remainder fit where the dividend does, so both are written (R64). -/
theorem State.Inv.resultOf_divrem_of_ne_zero (h : s.Inv) {rd rc : RegName} (ra : RegName) {rb : RegName}
    (hne : rd ≠ rc) (hb : s.value rb ≠ 0) :
    resultOf (.divrem rd rc ra rb) s
      = .ok ((s.setReg rd (Mag.limbs (s.value ra / s.value rb))).setReg rc
          (Mag.limbs (s.value ra % s.value rb))) := by
  have hq : (Mag.limbs (s.value ra / s.value rb)).length ≤ s.lmax := h.nlimbs_le ra (Nat.div_le_self ..)
  have hr : (Mag.limbs (s.value ra % s.value rb)).length ≤ s.lmax := h.nlimbs_le ra (Nat.mod_le ..)
  rw [resultOf, divremResult, if_neg hne, if_neg hb, Divider.divRem_eq _ _ (Nat.pos_of_ne_zero hb)]
  dsimp only
  rw [State.writeReg_of_fits rd hq]
  exact State.writeReg_of_fits rc hr

/-- `DIVREM` with two destinations and a divisor that is not 0 (R64). -/
theorem State.Inv.exec_divrem_of_ne_zero (h : s.Inv) {rd rc : RegName} (ra : RegName) {rb : RegName}
    (hne : rd ≠ rc) (hb : s.value rb ≠ 0) :
    exec (.divrem rd rc ra rb) s = .next
      ((s.setReg rd (Mag.limbs (s.value ra / s.value rb))).setReg rc
        (Mag.limbs (s.value ra % s.value rb))).completed := by
  rw [exec_eq, h.resultOf_divrem_of_ne_zero ra hne hb]
  rfl

/-- `CANON` and `REM` yield the same, capacity fault included: the divider's remainder is the residue. -/
theorem resultOf_canon_eq_rem (s : State) (rd ra rc : RegName) :
    resultOf (.canon rd ra rc) s = resultOf (.rem rd ra rc) s := by
  rw [resultOf, resultOf, State.modResult]
  split
  · rfl
  · next hc => rw [Divider.divRem_eq _ _ (Nat.pos_of_ne_zero hc), Modular.canon]

end

/-! ## The statements of `spec/42_division.md` -/

/-- Settles O22: one register for both destinations does not decode; otherwise the divisor decides between
the fault and the two writes. -/
theorem divremGivesQuotientAndRemainder : Obligations.DivremGivesQuotientAndRemainder := by
  intro s rd rc ra rb hs
  refine ⟨?_, fun hne _ => decode_eq_ok_iff_of_wellFormed (bne_iff_ne.mpr hne),
    fun hne hb => exec_of_error (resultOf_divrem_of_zero ra hne hb),
    hs.exec_divrem_of_ne_zero ra⟩
  rintro rfl
  exact decode_divrem_sameDestination rd ra rb

/-- Settles O23: the divisor decides between the fault and the remainder, which fits where the dividend
does. -/
theorem remGivesRemainder : Obligations.RemGivesRemainder :=
  fun _ rd ra _ hs => ⟨fun _ => decode_eq_ok_iff_of_wellFormed rfl,
    fun hb => exec_of_error (resultOf_rem_of_zero rd ra hb), hs.exec_rem_of_ne_zero rd ra⟩

/-- Settles O24: the two destinations hold `limbs` of quotient and remainder, whatever the sources held. -/
theorem divremReconstructsDividend : Obligations.DivremReconstructsDividend := by
  intro s rd rc ra rb hs hne hb
  refine ⟨_, hs.exec_divrem_of_ne_zero ra hne hb, rfl, ?_⟩
  simp only [State.value, State.completed_reg, State.reg_setReg_same, State.reg_setReg_ne _ hne, Mag.val_limbs]
  exact ⟨(Nat.div_add_mod' ..).symm, Nat.mod_lt _ (Nat.pos_of_ne_zero hb), Mag.limbs_normal _,
    Mag.limbs_normal _⟩

/-- Settles O26: every command completes with what it yields, and the two yield the same. -/
theorem canonEqualsRem : Obligations.CanonEqualsRem := by
  intro s rd ra rc
  rw [exec_eq, exec_eq, resultOf_canon_eq_rem]

end Sys2Proof.Machine

/-! Modular multiplication: `CANON`, `ADDMOD`, `SUBMOD`, `MULMOD` and the modulus (R67 to R72). -/

namespace Sys2Proof.Modular

/-- `subMod` is the one `d` in `[0, m)` with `d + b` congruent to `a` (R70). -/
theorem subMod_eq_of_mod_eq {a b m d : Nat} (hd : d < m) (h : (d + b) % m = a % m) : subMod a b m = d := by
  obtain ⟨hlt, hmod⟩ := subMod_spec a b m (Nat.zero_lt_of_lt hd)
  have hsum : subMod a b m + b ≡ d + b [MOD m] := hmod.trans h.symm
  exact (Nat.ModEq.add_right_cancel' b hsum).eq_of_lt_of_lt hlt hd

end Sys2Proof.Modular

namespace Sys2Proof.Machine

section
variable {s : State} {i : Instr} {rd rc : RegName} {v : Nat}

/-! ## What every modular command shares (R72) -/

/-- With modulus 0 a modular command faults, whatever it would have computed. -/
theorem exec_of_modResult_of_zero (hr : resultOf i s = s.modResult rd rc v) (hc : s.value rc = 0) :
    exec i s = .next (s.faulted 2) :=
  exec_of_error (hr.trans (if_pos hc))

/-- A result below the modulus fits where the modulus does, so it is written. -/
theorem State.Inv.exec_of_modResult_of_lt (h : s.Inv) (hr : resultOf i s = s.modResult rd rc v)
    (hv : v < s.value rc) : exec i s = .next (s.setReg rd (Mag.limbs v)).completed :=
  exec_of_writeReg (hr.trans (if_neg (Nat.ne_zero_of_lt hv))) (h.nlimbs_le rc hv.le)

/-! ## The results as numbers (R68 to R70) -/

/-- `CANON` with a modulus that is not 0 (R68). -/
theorem State.Inv.exec_canon_of_ne_zero (h : s.Inv) (rd ra : RegName) (hc : s.value rc ≠ 0) :
    exec (.canon rd ra rc) s = .next (s.setReg rd (Mag.limbs (s.value ra % s.value rc))).completed :=
  h.exec_of_modResult_of_lt rfl (Nat.mod_lt _ (Nat.pos_of_ne_zero hc))

/-- `ADDMOD` with a modulus that is not 0 (R69). -/
theorem State.Inv.exec_addmod_of_ne_zero (h : s.Inv) (rd ra rb : RegName) (hc : s.value rc ≠ 0) :
    exec (.addmod rd ra rb rc) s
      = .next (s.setReg rd (Mag.limbs ((s.value ra + s.value rb) % s.value rc))).completed := by
  refine h.exec_of_modResult_of_lt ?_ (Nat.mod_lt _ (Nat.pos_of_ne_zero hc))
  rw [resultOf, Modular.addMod_eq]

/-- `SUBMOD` with the residue of the difference given by what it solves (R70). -/
theorem State.Inv.exec_submod_of_mod_eq (h : s.Inv) (rd : RegName) {ra rb : RegName} {d : Nat}
    (hd : d < s.value rc) (hmod : (d + s.value rb) % s.value rc = s.value ra % s.value rc) :
    exec (.submod rd ra rb rc) s = .next (s.setReg rd (Mag.limbs d)).completed := by
  refine h.exec_of_modResult_of_lt ?_ hd
  rw [resultOf, Modular.subMod_eq_of_mod_eq hd hmod]

/-! ## The range of the results (R72) -/

/-- Each of the five commands checks the modulus before it does anything else. -/
theorem exists_resultOf_eq_modResult (s : State) {ra rb : RegName}
    (hi : i ∈ [Instr.canon rd ra rc, .addmod rd ra rb rc, .submod rd ra rb rc, .mulmod rd ra rb rc,
      .powmod rd ra rb rc]) : ∃ v, resultOf i s = s.modResult rd rc v := by
  simp only [List.mem_cons, List.not_mem_nil, or_false] at hi
  obtain rfl | rfl | rfl | rfl | rfl := hi <;> exact ⟨_, rfl⟩

/-- Four of them compute a number below a modulus that is not 0. `POWMOD` is not among them: it gives 1
for exponent 0, also modulo 1. -/
theorem exists_lt_resultOf_eq_modResult {ra rb : RegName} (hm : 0 < s.value rc)
    (hi : i ∈ [Instr.canon rd ra rc, .addmod rd ra rb rc, .submod rd ra rb rc, .mulmod rd ra rb rc]) :
    ∃ v < s.value rc, resultOf i s = s.modResult rd rc v := by
  simp only [List.mem_cons, List.not_mem_nil, or_false] at hi
  obtain rfl | rfl | rfl | rfl := hi
  case inr.inr.inl => exact ⟨_, (Modular.subMod_spec _ _ _ hm).1, rfl⟩
  all_goals exact ⟨_, Nat.mod_lt _ hm, rfl⟩

end

/-! ## The statements of `spec/43_modular_multiplication.md` -/

/-- Settles O25: the modulus decides between the fault and the residue, which fits where the modulus
does. -/
theorem canonGivesResidue : Obligations.CanonGivesResidue :=
  fun _ rd ra _ hs => ⟨fun _ => decode_eq_ok_iff_of_wellFormed rfl, exec_of_modResult_of_zero rfl,
    hs.exec_canon_of_ne_zero rd ra⟩

/-- Settles O27: the sum of the residues has the residue of the sum. -/
theorem addmodGivesResidueOfSum : Obligations.AddmodGivesResidueOfSum :=
  fun _ rd ra rb _ hs => ⟨fun _ => decode_eq_ok_iff_of_wellFormed rfl, exec_of_modResult_of_zero rfl,
    hs.exec_addmod_of_ne_zero rd ra rb⟩

/-- Settles O28: the engine's difference is such a `d`, and no other number below the modulus is. -/
theorem submodGivesResidueOfDifference : Obligations.SubmodGivesResidueOfDifference :=
  fun _ rd _ _ _ hs => ⟨fun _ => decode_eq_ok_iff_of_wellFormed rfl, exec_of_modResult_of_zero rfl,
    fun _ => hs.exec_submod_of_mod_eq rd,
    fun hc => ⟨_, Modular.subMod_spec _ _ _ (Nat.pos_of_ne_zero hc)⟩⟩

/-- Settles O29: the product is an exact number and only its residue is written, so nothing overflows. -/
theorem mulmodGivesResidueOfProduct : Obligations.MulmodGivesResidueOfProduct :=
  fun _ rd ra rb _ hs => ⟨fun _ => decode_eq_ok_iff_of_wellFormed rfl, exec_of_modResult_of_zero rfl,
    hs.exec_mulmod_of_ne_zero rd ra rb⟩

/-- Settles O31: a result below the modulus is written as it is, and below 1 there is only 0. -/
theorem modulusRange : Obligations.ModulusRange := by
  intro s rd ra rb rc hs
  constructor
  · intro hc i hi
    obtain ⟨v, hr⟩ := exists_resultOf_eq_modResult s hi
    exact exec_of_modResult_of_zero hr hc
  · intro hm i hi
    obtain ⟨v, hv, hr⟩ := exists_lt_resultOf_eq_modResult hm hi
    refine ⟨_, hs.exec_of_modResult_of_lt hr hv, rfl, rfl, ?_, fun hone => ?_⟩
    · rwa [State.value, State.completed_reg, State.reg_setReg_same, Mag.val_limbs]
    · have hzero : v = 0 := Nat.lt_one_iff.mp (hone ▸ hv)
      rw [State.completed_reg, State.reg_setReg_same, hzero]
      rfl

end Sys2Proof.Machine

/-! Modular exponentiation: `POWMOD` (R73). -/

namespace Sys2Proof.Machine

section
variable {s : State} {rb rc : RegName}

/-- `POWMOD` with exponent 0 writes 1 without reducing it, so it is the one modular result that may not be
below the modulus; one limb fits any `LMAX` (R73). -/
theorem State.Inv.exec_powmod_of_exponent_zero (h : s.Inv) (rd ra : RegName) (hc : s.value rc ≠ 0)
    (he : s.value rb = 0) : exec (.powmod rd ra rb rc) s = .next (s.setReg rd [1]).completed := by
  have hone : Mag.limbs 1 = [1] := rfl
  refine exec_of_writeReg ?_ h.lmax_pos
  rw [resultOf, State.modResult, if_neg hc, Modular.powMod_eq, if_pos he, hone]

/-- `POWMOD` with an exponent that is not 0 (R73). -/
theorem State.Inv.exec_powmod_of_exponent_ne_zero (h : s.Inv) (rd ra : RegName) (hc : s.value rc ≠ 0)
    (he : s.value rb ≠ 0) :
    exec (.powmod rd ra rb rc) s
      = .next (s.setReg rd (Mag.limbs (s.value ra ^ s.value rb % s.value rc))).completed := by
  refine h.exec_of_modResult_of_lt ?_ (Nat.mod_lt _ (Nat.pos_of_ne_zero hc))
  rw [resultOf, Modular.powMod_eq, if_neg he]

end

/-! ## The statement of `spec/44_modular_exponentiation.md` -/

/-- Settles O30: the modulus decides about the fault, then the exponent between the unreduced 1 and the
residue of the power. -/
theorem powmodGivesResidueOfPower : Obligations.PowmodGivesResidueOfPower :=
  fun _ rd ra _ _ hs => ⟨fun _ => decode_eq_ok_iff_of_wellFormed rfl, exec_of_modResult_of_zero rfl,
    hs.exec_powmod_of_exponent_zero rd ra, hs.exec_powmod_of_exponent_ne_zero rd ra⟩

end Sys2Proof.Machine

/-! Faults and the host's rule: the table of causes (R75) and what a host that keeps R88 never sees. -/

namespace Sys2Proof.Modular

/-- A power's result is below a modulus that is not 0, or is the unreduced 1, which is not above it (R73). -/
theorem powMod_le (a e : Nat) {m : Nat} (hm : 0 < m) : powMod a e m ≤ m := by
  rw [powMod_eq]
  split
  · exact hm
  · exact (Nat.mod_lt _ hm).le

end Sys2Proof.Modular

namespace Sys2Proof.Machine

section
variable {s t : State} {i : Instr}

/-! ## Commands that never fault (R75) -/

theorem State.Inv.resultOf_mov (h : s.Inv) (rd ra : RegName) :
    resultOf (.mov rd ra) s = .ok (s.setReg rd (s.reg ra)) :=
  State.writeReg_of_fits rd (h.regs_fit ra)

theorem State.Inv.resultOf_ldi (h : s.Inv) (rd : RegName) (imm : BitVec 16) :
    resultOf (.ldi rd imm) s = .ok (s.setReg rd [Mag.limbOf (immValue imm)]) :=
  State.writeReg_of_fits rd h.lmax_pos

theorem State.Inv.resultOf_shr (h : s.Inv) (rd ra : RegName) (k : BitVec 16) :
    resultOf (.shr rd ra k) s = .ok (s.setReg rd (Mag.limbs (s.value ra / RADIX ^ k.toNat))) :=
  (congrArg (s.writeReg rd) (Mag.shr_eq_limbs ..)).trans
    (State.writeReg_of_fits rd (h.nlimbs_le ra (Nat.div_le_self ..)))

/-- A command that yields writes completes and leaves the three fault registers, latched fault or not. -/
theorem exec_of_ok (h : resultOf i s = .ok t) :
    exec i s = .next t.finish ∧ t.fault = s.fault ∧ t.fcause = s.fcause ∧ t.fcmd = s.fcmd := by
  refine ⟨by rw [exec_eq, h, State.complete_ok], ?_⟩
  rw [(resultOf_ok h).eq]
  exact ⟨rfl, rfl, rfl⟩

end

/-- Settles O34: three of the six check nothing, and what the other three write fits. -/
theorem commandsThatNeverFault : Obligations.CommandsThatNeverFault := by
  intro s rd ra rb k hs i hi
  have hok : ∃ u, resultOf i s = .ok u := by
    simp only [List.mem_cons, List.not_mem_nil, or_false] at hi
    obtain rfl | rfl | rfl | rfl | rfl | rfl := hi
    · exact ⟨_, rfl⟩
    · exact ⟨_, rfl⟩
    · exact ⟨_, hs.resultOf_mov rd ra⟩
    · exact ⟨_, hs.resultOf_ldi rd k⟩
    · exact ⟨_, hs.resultOf_shr rd ra k⟩
    · exact ⟨_, rfl⟩
  obtain ⟨u, hu⟩ := hok
  obtain ⟨hexec, hfault, hfcause, hfcmd⟩ := exec_of_ok hu
  exact ⟨_, hexec, rfl, hfault, hfcause, hfcmd⟩

section
variable {s : State} {i : Instr}

/-! ## The table of causes (R75) -/

/-- The commands that check the modulus `M[rc]` (R72). -/
abbrev modularCommands (rd ra rb rc : RegName) : List Instr :=
  [.canon rd ra rc, .addmod rd ra rb rc, .submod rd ra rb rc, .mulmod rd ra rb rc, .powmod rd ra rb rc]

/-- The rows of R75's table, of the word in flight, the operands and `LMAX`. -/
inductive CauseRow (s : State) : FaultCause → Prop where
  | illegalWord : (∀ i, decode s.cur ≠ .ok i) → CauseRow s .illegalCommand
  | divisor {i : Instr} {rd ra rb rc : RegName} : decode s.cur = .ok i →
      i ∈ [Instr.divrem rd rc ra rb, .rem rd ra rb] → s.value rb = 0 → CauseRow s .divisionByZero
  | modulus {i : Instr} {rd ra rb rc : RegName} : decode s.cur = .ok i →
      i ∈ modularCommands rd ra rb rc → s.value rc = 0 → CauseRow s .divisionByZero
  | difference {rd ra rb : RegName} : decode s.cur = .ok (.sub rd ra rb) → s.value ra < s.value rb →
      CauseRow s .subUnderflow
  | sum {rd ra rb : RegName} : decode s.cur = .ok (.add rd ra rb) →
      s.lmax < Mag.nlimbs (s.value ra + s.value rb) → CauseRow s .capacityOverflow
  | product {rd ra rb : RegName} : decode s.cur = .ok (.mul rd ra rb) →
      s.lmax < Mag.nlimbs (s.value ra * s.value rb) → CauseRow s .capacityOverflow
  | shifted {rd ra : RegName} {k : BitVec 16} : decode s.cur = .ok (.shl rd ra k) →
      s.lmax < Mag.nlimbs (s.value ra * RADIX ^ k.toNat) → CauseRow s .capacityOverflow
  | bufferWord {rd : RegName} {n : BitVec 16} : decode s.cur = .ok (.ld rd n) → n.toNat ≤ s.lmax →
      (∃ j, j < n.toNat ∧ RADIX ≤ (s.buf j).toNat) → CauseRow s .limbRange
  | count {rd : RegName} {n : BitVec 16} : decode s.cur = .ok (.ld rd n) → s.lmax < n.toNat →
      CauseRow s .lengthRange

theorem State.currentResult_of_decode (h : decode s.cur = .ok i) : s.currentResult = resultOf i s := by
  rw [State.currentResult, h]

theorem State.currentResult_of_illegal (h : ∀ i, decode s.cur ≠ .ok i) :
    s.currentResult = .error .illegalCommand := by
  cases hd : decode s.cur with
  | ok i => exact absurd hd (h i)
  | error e => rw [State.currentResult, hd]

/-- `DIVREM` decodes only with two destinations (R48 case 3). -/
theorem ne_of_decode_divrem {w : Word} {rd rc ra rb : RegName}
    (h : decode w = .ok (.divrem rd rc ra rb)) : rd ≠ rc :=
  bne_iff_ne.mp (decodedWordIsItsEncoding _ _ h).2

/-- The condition of a row makes its fault. -/
theorem State.Inv.currentResult_of_cause (h : s.Inv) {f : FaultCause} (hf : CauseRow s f) :
    s.currentResult = .error f := by
  cases hf with
  | illegalWord hd => exact State.currentResult_of_illegal hd
  | divisor hd hi hb =>
    rw [State.currentResult_of_decode hd]
    simp only [List.mem_cons, List.not_mem_nil, or_false] at hi
    obtain rfl | rfl := hi
    · exact resultOf_divrem_of_zero _ (ne_of_decode_divrem hd) hb
    · exact resultOf_rem_of_zero _ _ hb
  | modulus hd hi hc =>
    obtain ⟨v, hv⟩ := exists_resultOf_eq_modResult s hi
    rw [State.currentResult_of_decode hd, hv]
    exact if_pos hc
  | difference hd hlt => rw [State.currentResult_of_decode hd, h.resultOf_sub_of_lt _ hlt]
  | sum hd hl =>
    rw [State.currentResult_of_decode hd, resultOf_add]
    exact State.writeReg_of_overflow _ hl
  | product hd hl =>
    rw [State.currentResult_of_decode hd, resultOf_mul]
    exact State.writeReg_of_overflow _ hl
  | shifted hd hl =>
    rw [State.currentResult_of_decode hd, resultOf_shl]
    exact State.writeReg_of_overflow _ hl
  | bufferWord hd hn hw =>
    rw [State.currentResult_of_decode hd]
    exact loadResult_of_not_limb _ hn hw
  | count hd hn =>
    rw [State.currentResult_of_decode hd]
    exact loadResult_of_too_long _ hn

/-! ## No fault outside the table -/

theorem State.Inv.modResult_of_le (h : s.Inv) (rd : RegName) {rc : RegName} {v : Nat}
    (hc : s.value rc ≠ 0) (hv : v ≤ s.value rc) :
    s.modResult rd rc v = .ok (s.setReg rd (Mag.limbs v)) :=
  (if_neg hc).trans (State.writeReg_of_fits rd (h.nlimbs_le rc hv))

/-- With a modulus that is not 0 none of the five modular commands faults. -/
theorem State.Inv.exists_resultOf_eq_ok_of_modulus (h : s.Inv) {rd ra rb rc : RegName}
    (hc : s.value rc ≠ 0) (hi : i ∈ modularCommands rd ra rb rc) : ∃ t, resultOf i s = .ok t := by
  have hm : 0 < s.value rc := Nat.pos_of_ne_zero hc
  obtain hi | rfl : i ∈ [Instr.canon rd ra rc, .addmod rd ra rb rc, .submod rd ra rb rc,
      .mulmod rd ra rb rc] ∨ i = .powmod rd ra rb rc := by simpa [or_assoc] using hi
  · obtain ⟨v, hv, hr⟩ := exists_lt_resultOf_eq_modResult hm hi
    exact ⟨_, hr.trans (h.modResult_of_le rd hc hv.le)⟩
  · exact ⟨_, h.modResult_of_le rd hc (Modular.powMod_le _ _ hm)⟩

/-- Words that are limbs load: at most `LMAX` of them make a sequence that fits (R53). -/
theorem State.Inv.exists_loadResult_eq_ok (h : s.Inv) (rd : RegName) {n : Nat} (hn : n ≤ s.lmax)
    (hw : ∀ j, j < n → (s.buf j).toNat < RADIX) : ∃ t, loadResult rd n s = .ok t := by
  refine ⟨_, (loadResult_of_limbWords rd hn (State.bufWords_eq_map_limbWord hw)).trans
    (State.writeReg_of_fits rd ((Mag.trim_length_le _).trans (max_le h.lmax_pos ?_)))⟩
  rwa [List.length_map, List.length_range]

/-- A modular command in flight faults by its row or not at all. -/
theorem State.Inv.exists_cause_or_ok_of_modular (h : s.Inv) {rd ra rb rc : RegName}
    (hd : decode s.cur = .ok i) (hi : i ∈ modularCommands rd ra rb rc) :
    (∃ f, CauseRow s f) ∨ ∃ t, resultOf i s = .ok t := by
  by_cases hc : s.value rc = 0
  · exact .inl ⟨_, .modulus hd hi hc⟩
  · exact .inr (h.exists_resultOf_eq_ok_of_modulus hc hi)

/-- A command in flight that only writes a register faults by its row or not at all. -/
theorem exists_cause_or_ok_of_writeReg {r : RegName} {L : Mag}
    (hrow : s.lmax < L.length → CauseRow s .capacityOverflow) (hr : resultOf i s = s.writeReg r L) :
    (∃ f, CauseRow s f) ∨ ∃ t, resultOf i s = .ok t := by
  obtain hover | hfit := lt_or_ge s.lmax L.length
  · exact .inl ⟨_, hrow hover⟩
  · exact .inr ⟨_, hr.trans (State.writeReg_of_fits r hfit)⟩

/-- A command that decodes satisfies the condition of a row, or it yields writes. -/
theorem State.Inv.exists_cause_or_ok_of_decode (h : s.Inv) (hd : decode s.cur = .ok i) :
    (∃ f, CauseRow s f) ∨ ∃ t, resultOf i s = .ok t := by
  cases i with
  | nop | st | cmp => exact .inr ⟨_, rfl⟩
  | mov rd ra => exact .inr ⟨_, h.resultOf_mov rd ra⟩
  | ldi rd imm => exact .inr ⟨_, h.resultOf_ldi rd imm⟩
  | shr rd ra k => exact .inr ⟨_, h.resultOf_shr rd ra k⟩
  | add rd ra rb => exact exists_cause_or_ok_of_writeReg (.sum hd) (resultOf_add s rd ra rb)
  | mul rd ra rb => exact exists_cause_or_ok_of_writeReg (.product hd) (resultOf_mul s rd ra rb)
  | shl rd ra k => exact exists_cause_or_ok_of_writeReg (.shifted hd) (resultOf_shl s rd ra k)
  | sub rd ra rb =>
    obtain hlt | hle := lt_or_ge (s.value ra) (s.value rb)
    · exact .inl ⟨_, .difference hd hlt⟩
    · have hfit := h.nlimbs_le ra (Nat.sub_le (s.value ra) (s.value rb))
      exact .inr ⟨_, (h.resultOf_sub_of_le rd hle).trans (State.writeReg_of_fits rd hfit)⟩
  | ld rd n =>
    obtain hlong | hn := lt_or_ge s.lmax n.toNat
    · exact .inl ⟨_, .count hd hlong⟩
    by_cases hw : ∃ j, j < n.toNat ∧ RADIX ≤ (s.buf j).toNat
    · exact .inl ⟨_, .bufferWord hd hn hw⟩
    · push Not at hw
      exact .inr (h.exists_loadResult_eq_ok rd hn hw)
  | divrem rd rc ra rb =>
    by_cases hb : s.value rb = 0
    · exact .inl ⟨_, .divisor (rd := rd) (ra := ra) (rc := rc) hd (by simp) hb⟩
    · exact .inr ⟨_, h.resultOf_divrem_of_ne_zero ra (ne_of_decode_divrem hd) hb⟩
  | rem rd ra rb =>
    by_cases hb : s.value rb = 0
    · exact .inl ⟨_, .divisor (rd := rd) (ra := ra) (rc := rd) hd (by simp) hb⟩
    · rw [← resultOf_canon_eq_rem]
      exact .inr (h.exists_resultOf_eq_ok_of_modulus (rd := rd) (ra := ra) (rb := rb) hb (by simp))
  | canon rd ra rc =>
    exact h.exists_cause_or_ok_of_modular (rd := rd) (ra := ra) (rb := ra) (rc := rc) hd (by simp)
  | addmod rd ra rb rc | submod rd ra rb rc | mulmod rd ra rb rc | powmod rd ra rb rc =>
    exact h.exists_cause_or_ok_of_modular (rd := rd) (ra := ra) (rb := rb) (rc := rc) hd (by simp)

/-- The table is exact: the word in flight faults with a cause iff the cause's row says so. -/
theorem State.Inv.currentResult_eq_error_iff (h : s.Inv) {f : FaultCause} :
    s.currentResult = .error f ↔ CauseRow s f := by
  refine ⟨fun hr => ?_, h.currentResult_of_cause⟩
  cases hd : decode s.cur with
  | error e =>
    have hill : ∀ i, decode s.cur ≠ .ok i := by rw [hd]; nofun
    rw [State.currentResult_of_illegal hill] at hr
    cases hr
    exact .illegalWord hill
  | ok i =>
    obtain ⟨g, hg⟩ | ⟨t, ht⟩ := h.exists_cause_or_ok_of_decode hd
    · rw [h.currentResult_of_cause hg] at hr
      cases hr
      exact hg
    · rw [State.currentResult_of_decode hd, ht] at hr
      cases hr

/-- A completion latches a cause's code iff the cause's row says so (R75, R76). -/
theorem State.Inv.latched_iff (h : s.Inv) (hb : s.busy = true) (f : FaultCause) :
    (s.complete s.currentResult).fault = true ∧ (s.complete s.currentResult).fcause = f.code ↔
      CauseRow s f := by
  rw [← h.currentResult_eq_error_iff]
  cases hr : s.currentResult with
  | error g =>
    rw [State.complete_error, Except.error.injEq]
    exact ⟨fun ⟨_, hcode⟩ => FaultCause.code_inj hcode,
      fun hg => ⟨rfl, congrArg FaultCause.code hg⟩⟩
  | ok t =>
    obtain ⟨i, -, hi⟩ := State.currentResult_ok hr
    obtain ⟨-, hnofault⟩ := h.busy_alone hb
    have hfault : t.fault = false := (resultOf_ok hi).fault_eq.trans hnofault
    simp [hfault]

end

/-- The codes the invariant allows are the six of R75. -/
theorem mem_causeCodes : ∀ c : BitVec 4, 1 ≤ c.toNat ∧ c.toNat ≤ 6 → c ∈ [1, 2, 3, 4, 5, 6] := by
  decide

/-- Settles O33: a completion latches what the table's rows say, and keeps the invariant. -/
theorem faultCausesAreExact : Obligations.FaultCausesAreExact := by
  intro s t hs hb ht
  rw [State.completeCurrent_eq] at ht
  cases ht
  have hrow := hs.latched_iff hb
  refine ⟨fun hf => ((hs.completion hb).no_cause hf).1,
    fun hf => mem_causeCodes _ ((hs.completion hb).cause_legal hf), ?_, ?_, ?_, ?_, ?_, ?_⟩
  · exact (hrow .illegalCommand).trans ⟨fun | .illegalWord hd => hd, .illegalWord⟩
  · refine (hrow .divisionByZero).trans ⟨?_, ?_⟩
    · intro h
      cases h with
      | divisor hd hi hz => exact ⟨_, _, _, _, _, hd, .inl ⟨hi, hz⟩⟩
      | modulus hd hi hz => exact ⟨_, _, _, _, _, hd, .inr ⟨hi, hz⟩⟩
    · rintro ⟨i, rd, ra, rb, rc, hd, ⟨hi, hz⟩ | ⟨hi, hz⟩⟩
      · exact .divisor hd hi hz
      · exact .modulus hd hi hz
  · exact (hrow .subUnderflow).trans
      ⟨fun | .difference hd hlt => ⟨_, _, _, hd, hlt⟩,
        fun ⟨_, _, _, hd, hlt⟩ => .difference hd hlt⟩
  · refine (hrow .capacityOverflow).trans ⟨?_, ?_⟩
    · intro h
      cases h with
      | sum hd hl => exact .inl ⟨_, _, _, hd, hl⟩
      | product hd hl => exact .inr (.inl ⟨_, _, _, hd, hl⟩)
      | shifted hd hl => exact .inr (.inr ⟨_, _, _, hd, hl⟩)
    · rintro (⟨_, _, _, hd, hl⟩ | ⟨_, _, _, hd, hl⟩ | ⟨_, _, _, hd, hl⟩)
      · exact .sum hd hl
      · exact .product hd hl
      · exact .shifted hd hl
  · exact (hrow .limbRange).trans
      ⟨fun | .bufferWord hd hn hw => ⟨_, _, hd, hn, hw⟩,
        fun ⟨_, _, hd, hn, hw⟩ => .bufferWord hd hn hw⟩
  · exact (hrow .lengthRange).trans
      ⟨fun | .count hd hn => ⟨_, _, hd, hn⟩,
        fun ⟨_, _, hd, hn⟩ => .count hd hn⟩

/-! ## The host's rule (R88) -/

section
variable {s t : State} {w : Word} {off : Nat}

/-- What R88 asks of a read of the window. -/
theorem State.hostRule_read {bytes : Nat} : s.hostRule (.read (s.base + off) bytes) = true ↔
    (s.busy = true →
      windowReg s.lmax off ∈ [WindowReg.status, .cap, .fcause, .fcmd, .buflen]) := by
  cases hb : s.busy <;> simp [State.hostRule, hb]

/-- What R88 asks of a write of the window. -/
theorem State.hostRule_write {bytes : Nat} : s.hostRule (.write (s.base + off) bytes w) = true ↔
    (s.busy = true → windowReg s.lmax off = .clear) := by
  cases hb : s.busy <;> simp [State.hostRule, hb]

theorem State.writesCmd_write {bytes : Nat} :
    s.writesCmd (.write (s.base + off) bytes w) = false ↔ windowReg s.lmax off ≠ .cmd := by
  simp [State.writesCmd]

/-- While busy only a read of a buffer word draws a free value, so a read of another register changes
nothing but the value read (R26, R34). -/
theorem State.hostRead_draws (h : s.busy = true → ∀ j, windowReg s.lmax off ≠ .buf j) :
    (s.hostRead off).draws = s.draws :=
  (s.hostRead_eq off).2.resolve_right fun ⟨hb, j, hj⟩ => h hb j hj

/-- A write that sets `REJ` is one while busy or one to `CMD` under a latched fault (R20, R26, R80). -/
theorem HostWritten.loses_no_write {r : WindowReg} (h : HostWritten s w r t)
    (hb : s.busy = true → r = .clear) (hf : s.fault = true → r ≠ .cmd) :
    (t.rej = true → s.rej = true) ∧
      (s.busy = true → t.busy = true ∧ t.cur = s.cur ∧ t.draws = s.draws) := by
  cases h with
  | ignored => exact ⟨id, fun hbusy => ⟨hbusy, rfl, rfl⟩⟩
  | accepted => exact ⟨id, fun hbusy => nomatch hb hbusy⟩
  | rejected h =>
    obtain hbusy | hfault := h
    · exact nomatch hb hbusy
    · exact absurd rfl (hf hfault)
  | cleared =>
    rw [State.clear_rej, Bool.and_eq_true]
    exact ⟨And.left, fun hbusy => ⟨hbusy, rfl, rfl⟩⟩
  | stored => exact ⟨id, fun hbusy => nomatch hb hbusy⟩
  | dropped j hbusy => exact nomatch hb hbusy

end

/-- Settles O57: the rule leaves no read that draws a free value and no write that `REJ` counts. -/
theorem hostRuleLosesNoWrite : Obligations.HostRuleLosesNoWrite := by
  intro s t a hrule hcmd ha
  obtain ⟨off, -, -, ⟨rfl, rfl⟩ | ⟨w, rfl, rfl⟩⟩ := State.hostAccess_eq_next ha
  · have hdraws : (s.hostRead off).draws = s.draws := State.hostRead_draws fun hb j hj => by
      simpa [hj] using State.hostRule_read.mp hrule hb
    rw [(s.hostRead_eq off).1, hdraws]
    exact ⟨id, fun hb => ⟨hb, rfl, rfl⟩⟩
  · exact (s.hostWrite_spec off w).loses_no_write (State.hostRule_write.mp hrule)
      fun hf => State.writesCmd_write.mp (hcmd hf)

end Sys2Proof.Machine

/-! Reset and hazards: which turns change a magnitude register (R86), and the schedule that runs out (R89). -/

namespace Sys2Proof.Machine

section
variable {s t : State} {a : HostAccess}

/-! ## What each turn leaves unchanged -/

/-- The engine's turn completes the command in flight, or the block is idle and stays so (R21, R85). -/
theorem State.engineTurn_eq_next (h : s.engineTurn = .next t) :
    (s.busy = true ∧ t = s.complete s.currentResult) ∨ (s.busy = false ∧ t = s) := by
  cases hb : s.busy with
  | true =>
    rw [State.engineTurn_of_busy_eq hb] at h
    cases h
    exact .inl ⟨rfl, rfl⟩
  | false =>
    rw [State.engineTurn_of_idle hb] at h
    cases h
    exact .inr ⟨rfl, rfl⟩

/-- A completion touches neither the schedule nor the window's place. -/
theorem State.completion_frame (s : State) :
    (s.complete s.currentResult).events = s.events ∧ (s.complete s.currentResult).base = s.base := by
  cases hr : s.currentResult with
  | error f => exact ⟨rfl, rfl⟩
  | ok u =>
    obtain ⟨i, -, hi⟩ := State.currentResult_ok hr
    rw [State.complete_ok, (resultOf_ok hi).eq]
    exact ⟨rfl, rfl⟩

theorem State.engineTurn_busy (h : s.engineTurn = .next t) : t.busy = false := by
  obtain ⟨-, rfl⟩ | ⟨hb, rfl⟩ := State.engineTurn_eq_next h
  · exact State.complete_busy ..
  · exact hb

theorem State.engineTurn_frame (h : s.engineTurn = .next t) : t.events = s.events ∧ t.base = s.base := by
  obtain ⟨-, rfl⟩ | ⟨-, rfl⟩ := State.engineTurn_eq_next h
  · exact s.completion_frame
  · exact ⟨rfl, rfl⟩

/-- The engine changes a magnitude register only by completing a command (R21). -/
theorem State.busy_of_engineTurn_of_regs_ne (h : s.engineTurn = .next t) (hne : t.regs ≠ s.regs) :
    s.busy = true ∧ t.busy = false := by
  obtain ⟨hb, -⟩ | ⟨-, rfl⟩ := State.engineTurn_eq_next h
  · exact ⟨hb, State.engineTurn_busy h⟩
  · exact absurd rfl hne

theorem HostWritten.frame {w : Word} {r : WindowReg} (h : HostWritten s w r t) :
    t.regs = s.regs ∧ t.events = s.events ∧ t.base = s.base := by
  cases h <;> exact ⟨rfl, rfl, rfl⟩

/-- A host access reaches no magnitude register (R14), schedule or parameter. -/
theorem State.hostAccess_frame (h : s.hostAccess a = .next t) :
    t.regs = s.regs ∧ t.events = s.events ∧ t.base = s.base := by
  obtain ⟨off, -, -, ⟨-, rfl⟩ | ⟨w, -, rfl⟩⟩ := State.hostAccess_eq_next h
  · rw [(s.hostRead_eq off).1]
    exact ⟨rfl, rfl, rfl⟩
  · exact (s.hostWrite_spec off w).frame

/-- A step takes one turn off the schedule and leaves the window where it is. -/
theorem step_frame (h : step s = .next t) : t.events = s.events.tail ∧ t.base = s.base := by
  obtain ⟨he, ht⟩ | ⟨es, he, ht⟩ | ⟨a, es, he, ht⟩ | ⟨es, he, rfl⟩ := step_eq_next h <;> rw [he]
  · obtain ⟨hev, hbase⟩ := State.engineTurn_frame ht
    exact ⟨hev.trans he, hbase⟩
  · exact State.engineTurn_frame ht
  · exact (State.hostAccess_frame ht).2
  · exact ⟨rfl, rfl⟩

/-! ## Turns that are not refused (R33, R89) -/

/-- The access is an aligned word inside the window, to which the block gives a meaning (R33). -/
def State.Accepts (s : State) : HostAccess → Prop
  | .read addr bytes => ∃ off, s.offsetOf addr bytes = .ok off
  | .write addr bytes _ => ∃ off, s.offsetOf addr bytes = .ok off

theorem State.Accepts.exists_hostAccess (h : s.Accepts a) : ∃ t, s.hostAccess a = .next t := by
  cases a <;>
  · obtain ⟨off, ho⟩ := h
    rw [State.hostAccess, ho]
    exact ⟨_, rfl⟩

/-- Which accesses have a meaning depends on the window's place alone. -/
theorem State.Accepts.of_base_eq (h : s.Accepts a) (hbase : t.base = s.base) : t.Accepts a := by
  have hoff : t.offsetOf = s.offsetOf := by
    unfold State.offsetOf
    rw [hbase]
  cases a <;>
  · rw [State.Accepts, hoff]
    exact h

theorem State.exists_engineTurn (s : State) : ∃ t, s.engineTurn = .next t := by
  cases hb : s.busy with
  | true => exact ⟨_, State.engineTurn_of_busy_eq hb⟩
  | false => exact ⟨_, State.engineTurn_of_idle hb⟩

/-- Only a refused access keeps a step from answering a next state. -/
theorem exists_step (h : ∀ a, .access a ∈ s.events → s.Accepts a) : ∃ t, step s = .next t := by
  match he : s.events with
  | [] =>
    rw [step_of_no_events he]
    exact s.exists_engineTurn
  | .engine :: es =>
    rw [step_of_engine he]
    exact State.exists_engineTurn _
  | .access a :: es =>
    rw [step_of_access he]
    have ha : s.Accepts a := h a (by simp [he])
    exact (ha.of_base_eq (t := { s with events := es }) rfl).exists_hostAccess
  | .rst :: es => exact ⟨_, step_of_rst he⟩

/-- The run that starts in `s` and goes on as `run`. -/
def runFrom (s : State) (run : Nat → State) : Nat → State
  | 0 => s
  | k + 1 => run k

/-- The run O53 speaks of, turn by turn along the schedule: after its last turn comes one of the engine's. -/
theorem exists_run_to_idle (es : List Event) (s : State) (he : s.events = es)
    (h : ∀ a, .access a ∈ s.events → s.Accepts a) :
    ∃ run : Nat → State, run 0 = s ∧ (∀ k ≤ es.length, step (run k) = .next (run (k + 1))) ∧
      (run (es.length + 1)).busy = false ∧ (run (es.length + 1)).events = [] := by
  induction es generalizing s with
  | nil =>
    obtain ⟨t, ht⟩ := exists_step h
    obtain ⟨hev, -⟩ := step_frame ht
    refine ⟨runFrom s fun _ => t, rfl, fun k hk => ?_, ?_, ?_⟩
    · obtain rfl : k = 0 := Nat.le_zero.mp hk
      exact ht
    · rw [step_of_no_events he] at ht
      exact State.engineTurn_busy ht
    · rw [he] at hev
      exact hev
  | cons e es ih =>
    obtain ⟨t, ht⟩ := exists_step h
    obtain ⟨hev, hbase⟩ := step_frame ht
    rw [he, List.tail_cons] at hev
    rw [he] at h
    have haccepts : ∀ a, .access a ∈ t.events → t.Accepts a := fun a ha =>
      (h a (List.mem_cons_of_mem e (hev ▸ ha))).of_base_eq hbase
    obtain ⟨run, rfl, hstep, hend⟩ := ih t hev haccepts
    refine ⟨runFrom s run, rfl, fun k hk => ?_, hend⟩
    cases k with
    | zero => exact ht
    | succ k => exact hstep k (Nat.le_of_succ_le_succ hk)

end

/-- Settles O50: a host access reaches no register, and the engine's turn changes one only by a completion. -/
theorem onlyCompletionAndResetChangeRegisters : Obligations.OnlyCompletionAndResetChangeRegisters := by
  intro s t hst hne
  obtain ⟨he, ht⟩ | ⟨es, he, ht⟩ | ⟨a, es, -, ht⟩ | ⟨es, he, -⟩ := step_eq_next hst
  · obtain ⟨hb, hidle⟩ := State.busy_of_engineTurn_of_regs_ne ht hne
    exact .inr ⟨hb, hidle, .inl he⟩
  · obtain ⟨hb, hidle⟩ := State.busy_of_engineTurn_of_regs_ne ht hne
    exact .inr ⟨hb, hidle, .inr ⟨es, he⟩⟩
  · exact absurd (State.hostAccess_frame ht).1 hne
  · exact .inl ⟨es, he⟩

/-- Settles O53: by induction on the schedule, whose accesses keep their meaning as `BASE` never moves. -/
theorem scheduleEndsIdle : Obligations.ScheduleEndsIdle := by
  intro s hread hwrite
  refine exists_run_to_idle s.events s rfl fun a ha => ?_
  cases a with
  | read addr bytes => exact hread addr bytes ha
  | write addr bytes w => exact hwrite addr bytes w ha

end Sys2Proof.Machine
